-- ==== Sys2Proof/Word.lean ====
section
/-! DEFINITION. The word types of the block (00_scope.md R7, R8): 32-bit registers, 8-bit register indices, bytes of a
bus. Their plain arithmetic is core Lean's on `BitVec`. -/

namespace Sys2Proof

/-- A word: `XLEN` = 32 bits, bit 0 least significant (R7, R8). -/
abbrev Word := BitVec 32

/-- A register index on the port: `IDXW` = 8 bits (R7, R70). -/
abbrev RegIndex := BitVec 8

/-- A byte of a byte-addressed host bus (R72). -/
abbrev Byte := BitVec 8

end Sys2Proof
end

