-- ==== Sys2Proof/Config.lean ====
section
/-! DEFINITION. What one platform fixes and the spec leaves open (92_eei_decisions.md, table of parameters left OPEN).
The constants below have no body: nothing can be proved of the values they take. The parameters the spec does fix
(R7) are `npid` here, the number format in Machine/Float.lean and the constants of the CORDIC in Machine/Cordic.lean. -/

namespace Sys2Proof.Config

/-- `NPID`: the number of PID banks (R7, 92_eei_decisions.md D13). -/
def npid : Nat := 4

/-- The answer of the injected filter `FILT_Q` to the last word of a list of words presented to it since it was
initialised, oldest first (20_memory.md R88, 93_implementation_defined.md U2). Every total filter with a state of its
own answers as such a function does (log 1). -/
opaque filtQ : List Word → Word

/-- The same for `FILT_D`, a collaborator of its own (R88). -/
opaque filtD : List Word → Word

/-- The byte address of the block on a host bus (20_memory.md R72, 93_implementation_defined.md U6). -/
opaque blockBase : Nat

end Sys2Proof.Config

namespace Sys2Proof

/-- The parameters of the step relation that R15 names and R7 leaves OPEN: the sine/cosine evaluator, under the contract of
44_sincos.md R212, and the two filter collaborators, each as its answer to the last word of a list of words presented to
it (20_memory.md R88; log 1, 8). It is an argument of the step and no part of the state. -/
structure Platform where
  /-- `SINCOS`: from an angle to the pair (sine, cosine) (44_sincos.md R210). -/
  sincos : Word → Word × Word
  /-- `FILT_Q`. -/
  filtQ : List Word → Word
  /-- `FILT_D`. -/
  filtD : List Word → Word

end Sys2Proof
end

