-- ==== Sys2Proof/Syntax.lean ====
section
/-! DEFINITION. The nine commands of the block: the rows of 30_encoding.md R104, in the table's order. -/

namespace Sys2Proof

/-- A command (00_scope.md R3). Only `PIDC` has an operand field, the bank index `idx`, 0 to 3 (30_encoding.md R103);
every other operand is a fixed register. -/
inductive Instr where
  /-- `NOP`, opcode 0x00 (45_system.md R241). -/
  | nop
  /-- `SINCOS`, opcode 0x01 (44_sincos.md R211). -/
  | sincos
  /-- `CLARKE`, opcode 0x02 (42_transform.md R171). -/
  | clarke
  /-- `PARK`, opcode 0x03 (42_transform.md R173). -/
  | park
  /-- `UPDCUR`, opcode 0x04 (42_transform.md R175). -/
  | updcur
  /-- `IPARK`, opcode 0x05 (43_synthesis.md R191). -/
  | ipark
  /-- `ICLARKE`, opcode 0x06 (43_synthesis.md R193). -/
  | iclarke
  /-- `SYNTH`, opcode 0x07 (43_synthesis.md R195). -/
  | synth
  /-- `PIDC idx`, opcode 0x10 (41_pid.md R152). -/
  | pidc (idx : Fin 4)
deriving DecidableEq, Repr

end Sys2Proof
end

