-- ==== Sys2Proof/WellFormed.lean ====
section
/-! DEFINITION. Well-formedness. A command has one check, the range of `PIDC`'s bank index (30_encoding.md R103), and the
type of that index already meets it, so every term of `Instr` is well-formed. The checks a term can fail are those of
an access on a byte-addressed bus (20_memory.md R73): they say which accesses are port transactions. -/

namespace Sys2Proof

/-- The bank index of `PIDC` names one of the `NPID` banks; no other command has an operand (30_encoding.md R103). -/
def Instr.wf : Instr → Bool
  | .nop | .sincos | .clarke | .park | .updcur | .ipark | .iclarke | .synth => true
  | .pidc idx => decide (idx.val < Config.npid)

/-- An access on a byte-addressed host bus: its byte offset from the block's base address, how many bytes it moves, and
for a write the bytes, the one at the lowest address first (20_memory.md R72, R73). -/
structure BusAccess where
  /-- Byte offset from the base address. -/
  offset : Nat
  /-- Number of bytes. -/
  size : Nat
  /-- `none` for a read; the bytes for a write. -/
  data : Option (List Byte)
deriving DecidableEq, Repr

/-- The offset is a multiple of 4 (R73). -/
def BusAccess.aligned (a : BusAccess) : Bool := a.offset % 4 == 0

/-- The access moves 4 bytes, and a write carries just as many (R73). -/
def BusAccess.wide (a : BusAccess) : Bool :=
  a.size == 4 && (match a.data with
    | none => true
    | some bytes => bytes.length == 4)

/-- The offset is below 0x400: 256 indices of 4 bytes (R22, R73). -/
def BusAccess.inRange (a : BusAccess) : Bool := decide (a.offset < 0x400)

/-- "a port transaction only for a 4-byte access whose byte offset is a multiple of 4 and below 0x400" (R73). -/
def BusAccess.wf (a : BusAccess) : Bool := a.wide && a.aligned && a.inRange

end Sys2Proof
end

