-- ==== Sys2Proof/Decode.lean ====
section
/-! DEFINITION. Decoding of a word written to `CMD` (30_encoding.md R100 to R108), the encoder from the same tables, and
the opcode table of R104 itself as masks and patterns. Decoding is total: a word is one of the nine commands or is
rejected with the clause of R106 that makes it illegal. -/

namespace Sys2Proof

/-- Why a word is illegal: the three clauses of 30_encoding.md R106. The block keeps no trace of which (R251). -/
inductive Illegal where
  /-- "opcodes 0x08 to 0x0F and 0x11 to 0xFF with any upper bits". -/
  | undefinedOpcode (opc : BitVec 8)
  /-- "opcodes 0x00 to 0x07 with any of bits 31:8 non-zero". -/
  | nonzeroAboveOpcode (opc : BitVec 8)
  /-- "opcode 0x10 with any of bits 31:10 non-zero". -/
  | nonzeroAboveIdx
deriving DecidableEq, Repr

/-- The `opc` field, bits 7:0, of both formats (R101). -/
def opcField (w : Word) : BitVec 8 := w.extractLsb' 0 8

/-- The `idx` field of format `CMDI`, bits 9:8, a 2-bit unsigned number used as is (R101, R103). -/
def idxField (w : Word) : Fin 4 := ⟨(w.extractLsb' 8 2).toNat, (w.extractLsb' 8 2).isLt⟩

/-- The `zero` field of format `CMD0`, bits 31:8 (R101). -/
def zeroField0 (w : Word) : BitVec 24 := w.extractLsb' 8 24

/-- The `zero` field of format `CMDI`, bits 31:10 (R101). -/
def zeroFieldI (w : Word) : BitVec 22 := w.extractLsb' 10 22

/-- The `CMD0` command of an opcode (R104). -/
def cmd0Of (opc : BitVec 8) : Option Instr :=
  match opc.toNat with
  | 0x00 => some .nop
  | 0x01 => some .sincos
  | 0x02 => some .clarke
  | 0x03 => some .park
  | 0x04 => some .updcur
  | 0x05 => some .ipark
  | 0x06 => some .iclarke
  | 0x07 => some .synth
  | _ => none

/-- Decoding a word written to `CMD` (R102). -/
def decode (w : Word) : Except Illegal Instr :=
  if opcField w = 0x10#8 then
    if zeroFieldI w = 0#22 then .ok (.pidc (idxField w)) else .error .nonzeroAboveIdx
  else
    match cmd0Of (opcField w) with
    | some i => if zeroField0 w = 0#24 then .ok i else .error (.nonzeroAboveOpcode (opcField w))
    | none => .error (.undefinedOpcode (opcField w))

/-- A word of format `CMD0` (R101). -/
def cmd0Word (opc : BitVec 8) : Word := 0#24 ++ opc

/-- A word of format `CMDI` (R101). -/
def cmdIWord (idx : Fin 4) (opc : BitVec 8) : Word := (0#22 ++ BitVec.ofNat 2 idx.val) ++ opc

/-- The word of a command: format and opcode of its row of R104. -/
def encode : Instr → Word
  | .nop => cmd0Word 0x00#8
  | .sincos => cmd0Word 0x01#8
  | .clarke => cmd0Word 0x02#8
  | .park => cmd0Word 0x03#8
  | .updcur => cmd0Word 0x04#8
  | .ipark => cmd0Word 0x05#8
  | .iclarke => cmd0Word 0x06#8
  | .synth => cmd0Word 0x07#8
  | .pidc idx => cmdIWord idx 0x10#8

/-- One row of the opcode map: "a word `w` is the command when `(w and mask) = match`" (R104). -/
structure OpcodeRow where
  /-- The mnemonic. -/
  mnemonic : String
  /-- The column `match`. -/
  pattern : Word
  /-- The column `mask`. -/
  mask : Word
deriving DecidableEq, Repr

/-- A word matches a row (R104). -/
def OpcodeRow.matchesWord (r : OpcodeRow) (w : Word) : Bool := (w &&& r.mask) == r.pattern

/-- The row of a command in the table of R104. -/
def Instr.row : Instr → OpcodeRow
  | .nop => ⟨"NOP", 0x00000000#32, 0xFFFFFFFF#32⟩
  | .sincos => ⟨"SINCOS", 0x00000001#32, 0xFFFFFFFF#32⟩
  | .clarke => ⟨"CLARKE", 0x00000002#32, 0xFFFFFFFF#32⟩
  | .park => ⟨"PARK", 0x00000003#32, 0xFFFFFFFF#32⟩
  | .updcur => ⟨"UPDCUR", 0x00000004#32, 0xFFFFFFFF#32⟩
  | .ipark => ⟨"IPARK", 0x00000005#32, 0xFFFFFFFF#32⟩
  | .iclarke => ⟨"ICLARKE", 0x00000006#32, 0xFFFFFFFF#32⟩
  | .synth => ⟨"SYNTH", 0x00000007#32, 0xFFFFFFFF#32⟩
  | .pidc _ => ⟨"PIDC", 0x00000010#32, 0xFFFFFCFF#32⟩

/-- The nine rows of R104. -/
def opcodeTable : List OpcodeRow :=
  [Instr.nop.row, Instr.sincos.row, Instr.clarke.row, Instr.park.row, Instr.updcur.row, Instr.ipark.row,
    Instr.iclarke.row, Instr.synth.row, (Instr.pidc 0).row]

/-- The word whose low `nbits` bits are those of `w` and whose other bits are 0: how the host names a row's word. A command
is one word and has no address (R100, R108), so no byte order enters. -/
def tableWord (nbits w : Nat) : Word := BitVec.ofNat 32 (w % 2 ^ nbits)

/-- What the decoder reads from a word of the opcode table. -/
def decodeTableWord (nbits w : Nat) : Option Instr :=
  match decode (tableWord nbits w) with
  | .ok i => some i
  | .error _ => none

end Sys2Proof
end

