-- ==== Sys2Proof/Machine/Float.lean ====
section
/-! DEFINITION. The number format and the arithmetic primitives: IEEE 754 binary32, round to nearest ties to even, one
canonical NaN (40_numerics.md R120 to R133). Every finite word is an integer number of units of 2^-149, so a
primitive computes its exact result as a ratio of integers and rounds it once. -/

namespace Sys2Proof.Machine

/-! ## The format -/

/-- The sign `s = b[31]` (R120). -/
def signOf (b : Word) : Bool := b.getLsbD 31

/-- The biased exponent `e = b[30:23]` (R120). -/
def expOf (b : Word) : Nat := (b.extractLsb' 23 8).toNat

/-- The fraction `f = b[22:0]` (R120). -/
def fracOf (b : Word) : Nat := (b.extractLsb' 0 23).toNat

/-- `isNaN` (R123): any NaN pattern, quiet or signalling. -/
def isNaN (b : Word) : Bool := expOf b == 255 && fracOf b != 0

/-- An infinity of either sign (R120). -/
def isInf (b : Word) : Bool := expOf b == 255 && fracOf b == 0

/-- A zero of either sign (R120). -/
def isZero (b : Word) : Bool := expOf b == 0 && fracOf b == 0

/-- A zero, subnormal or normal (R120). -/
def isFinite (b : Word) : Bool := expOf b != 255

/-- The real value of a finite word, as R121 writes it. -/
def val (b : Word) : ℚ :=
  let sign : ℚ := if signOf b then -1 else 1
  if expOf b = 0 then sign * 2 ^ (-126 : ℤ) * ((fracOf b : ℚ) / 2 ^ 23)
  else sign * 2 ^ ((expOf b : ℤ) - 127) * (1 + (fracOf b : ℚ) / 2 ^ 23)

/-- The canonical NaN (R124). -/
def canonicalNaN : Word := 0x7FC00000#32

/-- A word from its sign and its low 31 bits. -/
def packWord (s : Bool) (m : Nat) : Word := BitVec.ofBool s ++ BitVec.ofNat 31 m

/-- The zero of a sign. -/
def zeroOf (s : Bool) : Word := packWord s 0

/-- The infinity of a sign. -/
def infOf (s : Bool) : Word := packWord s 0x7F800000

/-- The magnitude of a word in units of 2^-149 (R121: a subnormal is `f` units, a normal `(2^23 + f) * 2^(e-1)`). On an
infinity the same formula gives 2^277 units, which is above every finite magnitude, as R129 orders it. -/
def magOf (b : Word) : Nat :=
  if expOf b = 0 then fracOf b else (2 ^ 23 + fracOf b) * 2 ^ (expOf b - 1)

/-- The signed value of a word in units of 2^-149. -/
def scaled (b : Word) : Int := if signOf b then -(magOf b : Int) else (magOf b : Int)

/-- How many of those units make 1. -/
def unitsPerOne : Nat := 2 ^ 149

/-! ## Rounding -/

/-- The natural number nearest `n / d`, the even one on a tie. -/
def rne (n d : Nat) : Nat :=
  if 2 * (n % d) < d then n / d
  else if d < 2 * (n % d) then n / d + 1
  else n / d + n / d % 2

/-- The integer nearest `n / d`, the even one on a tie (44_sincos.md R215). -/
def rneInt (n : Int) (d : Nat) : Int := if n < 0 then -(rne n.natAbs d : Int) else (rne n.natAbs d : Int)

/-- The low 31 bits of the word nearest `n / d` units of 2^-149 (R122). A binade above the lowest has a unit `2^sh` times
larger, with significands from 2^23 to 2^24 - 1; since the encoding of the word is `sh * 2^23` plus the significand,
a carry out of the significand is the next binade's first word, and from the binade of 2^128 on the result is the
infinity. -/
def roundMag (n d : Nat) : Nat :=
  let sh := Nat.log2 (n / d) - 23
  min (sh * 2 ^ 23 + rne n (d * 2 ^ sh)) 0x7F800000

/-- `round32(num / den, z)`, with `z` the sign of an exact zero (R122). -/
def round32 (num : Int) (den : Nat) (z : Bool) : Word :=
  if num = 0 then zeroOf z else packWord (decide (num < 0)) (roundMag (num.natAbs * unitsPerOne) den)

/-! ## The primitives -/

/-- `fneg` flips the sign bit of any word (R128). -/
def fneg (a : Word) : Word := a ^^^ 0x80000000#32

/-- `fadd` (R125). -/
def fadd (a b : Word) : Word :=
  if isNaN a || isNaN b then canonicalNaN
  else if isInf a && isInf b then (if signOf a = signOf b then a else canonicalNaN)
  else if isInf a then a
  else if isInf b then b
  else if isZero a && isZero b then (if signOf a = signOf b then a else zeroOf false)
  else round32 (scaled a + scaled b) unitsPerOne false

/-- `fsub` (R125). -/
def fsub (a b : Word) : Word :=
  if isNaN a || isNaN b then canonicalNaN else fadd a (fneg b)

/-- `fmul` (R126). -/
def fmul (a b : Word) : Word :=
  let z := signOf a ^^ signOf b
  if isNaN a || isNaN b then canonicalNaN
  else if (isInf a && isZero b) || (isZero a && isInf b) then canonicalNaN
  else if isInf a || isInf b then infOf z
  else round32 (scaled a * scaled b) (unitsPerOne * unitsPerOne) z

/-- `fdiv` (R127). -/
def fdiv (a b : Word) : Word :=
  let z := signOf a ^^ signOf b
  if isNaN a || isNaN b then canonicalNaN
  else if (isInf a && isInf b) || (isZero a && isZero b) then canonicalNaN
  else if isInf a then infOf z
  else if isInf b then zeroOf z
  else if isZero b then infOf z
  else round32 (if signOf b then -scaled a else scaled a) (magOf b) z

/-- `flt`, "a is less than b": false on a NaN, otherwise the order of the extended reals with +0 equal to -0 (R129). -/
def flt (a b : Word) : Bool := !isNaN a && !isNaN b && decide (scaled a < scaled b)

/-- `fgt(a, b)` is `flt(b, a)` (R129). -/
def fgt (a b : Word) : Bool := flt b a

/-- `clamp(x, lo, hi)`, the upper test first (R132). -/
def clamp (x lo hi : Word) : Word := if fgt x hi then hi else if flt x lo then lo else x

/-- `fromQ30(n)`, the word nearest `n / 2^30` (R133). -/
def fromQ30 (n : Int) : Word := round32 n (2 ^ 30) false

/-- `F(num / den)`, the word nearest a real number (00_scope.md R10, R122). -/
def nearestWord (num : Int) (den : Nat) : Word := round32 num den false

/-! ## The constants of R130 -/

/-- `C_SQRT3`. -/
def cSqrt3 : Word := 0x3FDDB3D7#32
/-- `C_099`. -/
def c099 : Word := 0x3F7D70A4#32
/-- `C_HALF`. -/
def cHalf : Word := 0x3F000000#32
/-- `C_ONE5`. -/
def cOne5 : Word := 0x3FC00000#32
/-- `C_TWO`. -/
def cTwo : Word := 0x40000000#32
/-- `C_INV2PI`. -/
def cInv2Pi : Word := 0x3E22F983#32

end Sys2Proof.Machine
end

