-- ==== Sys2Proof/Machine/Cordic.lean ====
section
/-! DEFINITION. The sine/cosine unit: `SINCOS_REF`, a 24-iteration CORDIC over binary angles (44_sincos.md R214 to R219).
Integers are mathematical integers (40_numerics.md R134). -/

namespace Sys2Proof.Machine

/-- `n >> i`, the shift toward minus infinity `floor(n / 2^i)` (40_numerics.md R134). -/
def floorShift (n : Int) (i : Nat) : Int := n / 2 ^ i

/-- The table `ATAN[0..23]` (44_sincos.md R217). -/
def atanTable : List Int :=
  [536870912, 316933406, 167458907, 85004756, 42667331, 21354465] ++
  [10679838, 5340245, 2670163, 1335087, 667544, 333772] ++
  [166886, 83443, 41722, 20861, 10430, 5215] ++
  [2608, 1304, 652, 326, 163, 81]

/-- The start value `X0` (R217). -/
def cordicX0 : Int := 652032874

/-- The three integers the iteration carries (R218). -/
structure CordicVec where
  /-- Toward the cosine. -/
  x : Int
  /-- Toward the sine. -/
  y : Int
  /-- The angle still to be turned. -/
  z : Int
deriving DecidableEq, Repr

/-- Iteration `i` with `a = ATAN[i]`: all three new values from the three old ones (R218). -/
def cordicStep (i : Nat) (a : Int) (v : CordicVec) : CordicVec :=
  if 0 ≤ v.z then ⟨v.x - floorShift v.y i, v.y + floorShift v.x i, v.z - a⟩
  else ⟨v.x + floorShift v.y i, v.y - floorShift v.x i, v.z + a⟩

/-- The iterations from `i` on, one for each entry left of the table (R218). -/
def cordicLoop : Nat → List Int → CordicVec → CordicVec
  | _, [], v => v
  | i, a :: rest, v => cordicLoop (i + 1) rest (cordicStep i a v)

/-- `min(max(n, 0), 2^30)` (R218). -/
def clampQ30 (n : Int) : Int := min (max n 0) (2 ^ 30)

/-- `CORDIC_Q1(r)`: the pair `(c, s)` (R218). -/
def cordicQ1 (r : Nat) : Int × Int :=
  if r = 0 then (2 ^ 30, 0)
  else
    let v := cordicLoop 0 atanTable ⟨cordicX0, 0, r⟩
    (clampQ30 v.x, clampQ30 v.y)

/-- From radians to BAM32, for a finite word (R215): `t = fmul(theta, C_INV2PI)`, then `val(t) * 2^32` rounded to an
integer and reduced modulo 2^32. With `t` in units of 2^-149 the product is `scaled t / 2^117`. -/
def bamOf (theta : Word) : Nat :=
  (rneInt (scaled (fmul theta cInv2Pi)) (2 ^ 117) % 2 ^ 32).toNat

/-- The quadrant mapping: `(ci, si)` from the quadrant and `(c, s)` (R216, R219). -/
def quadrantMap (quad : Nat) (c s : Int) : Int × Int :=
  match quad with
  | 0 => (c, s)
  | 1 => (-s, c)
  | 2 => (-c, -s)
  | _ => (s, -c)

/-- `(sine, cosine)` of a BAM32 value: its top two bits are the quadrant, its low 30 bits the residual (R214, R216). -/
def sincosOfBam (p : Nat) : Word × Word :=
  let cs := cordicQ1 (p % 2 ^ 30)
  let ms := quadrantMap (p / 2 ^ 30) cs.1 cs.2
  (fromQ30 ms.2, fromQ30 ms.1)

/-- `SINCOS_REF(theta) = (sine, cosine)` (R216). -/
def sincosRef (theta : Word) : Word × Word :=
  if isFinite theta then sincosOfBam (bamOf theta) else (canonicalNaN, canonicalNaN)

/-- The function the block takes for `SINCOS`: "This hardware's `SINCOS` is `SINCOS_REF`" (R210, R216; log 8). -/
def sincosUnit (theta : Word) : Word × Word := sincosRef theta

end Sys2Proof.Machine
end

