-- ==== Sys2Proof/Machine/State.lean ====
section
/-! DEFINITION. The state of the block and of what stands around it, as plain data, and its reset value. `Block` is
exactly the architectural state that 10_state.md R20 counts; `State` adds the two filter collaborators (R57), the event
history (20_memory.md R84) and the transactions the host has not yet had accepted (R21, R80). -/

namespace Sys2Proof.Machine

/-- Reasons the machine stops. There are none: "The block raises no synchronous exception and takes no trap"
(60_exceptions.md R250), every transaction has a defined effect (20_memory.md R86) and every command terminates
(70_reset_and_hazards.md R301). Log 12. -/
inductive Fault where
deriving DecidableEq, Repr

/-- Reasons an instruction has no meaning in this model. -/
inductive Refusal where
  /-- An arm of `exec` that gives its instruction no meaning would raise it, which is safe (a claim becomes unprovable).
  No arm does (log 12). -/
  | notModelled (mnemonic : String)
deriving DecidableEq, Repr

/-- The update law of a PID bank, bit 0 of `PCTRL`: 0 Position, 1 Delta (10_state.md R41). -/
inductive Law where
  /-- Bit value 0. -/
  | position
  /-- Bit value 1. -/
  | delta
deriving DecidableEq, Repr

/-- One PID bank: the 13 data registers and the law bit of 10_state.md R40. -/
structure Bank where
  /-- `PCTRL.LAW` (R41). -/
  law : Law
  /-- `TARGET` (R42). -/
  target : Word
  /-- `KP` (R43). -/
  kp : Word
  /-- `KI` (R43). -/
  ki : Word
  /-- `KD` (R43). -/
  kd : Word
  /-- `INT_HI` (R44). -/
  intHi : Word
  /-- `INT_LO` (R44). -/
  intLo : Word
  /-- `OUT_HI` (R45). -/
  outHi : Word
  /-- `OUT_LO` (R45). -/
  outLo : Word
  /-- `MEAS` (R46). -/
  meas : Word
  /-- `ERR1`, the previous error (R47). -/
  err1 : Word
  /-- `ERR2`, the error before that (R47). -/
  err2 : Word
  /-- `INTEG` (R48). -/
  integ : Word
  /-- `OUT` (R49). -/
  out : Word
deriving DecidableEq, Repr

/-- The four banks (R40, R50). -/
structure Banks where
  /-- `PID[0]`. -/
  bank0 : Bank
  /-- `PID[1]`. -/
  bank1 : Bank
  /-- `PID[2]`. -/
  bank2 : Bank
  /-- `PID[3]`. -/
  bank3 : Bank
deriving DecidableEq, Repr

/-- The architectural state of the block (10_state.md R20, R22). -/
structure Block where
  /-- `STATUS.ILLCMD` (R25). -/
  illCmd : Bool
  /-- `STATUS.ILLACC` (R25). -/
  illAcc : Bool
  /-- `THETA` (R27). -/
  theta : Word
  /-- `SIN` (R28). -/
  sin : Word
  /-- `COS` (R28). -/
  cos : Word
  /-- `CUR_U` (R29). -/
  curU : Word
  /-- `CUR_V` (R29). -/
  curV : Word
  /-- `CUR_W` (R29). -/
  curW : Word
  /-- `CUR_A` (R30). -/
  curA : Word
  /-- `CUR_B` (R30). -/
  curB : Word
  /-- `CUR_Q` (R31). -/
  curQ : Word
  /-- `CUR_D` (R31). -/
  curD : Word
  /-- `VOL_D` (R32). -/
  volD : Word
  /-- `VOL_Q` (R32). -/
  volQ : Word
  /-- `VOL_A` (R33). -/
  volA : Word
  /-- `VOL_B` (R33). -/
  volB : Word
  /-- `DUTY_U` (R34). -/
  dutyU : Word
  /-- `DUTY_V` (R34). -/
  dutyV : Word
  /-- `DUTY_W` (R34). -/
  dutyW : Word
  /-- The PID banks (R40). -/
  pid : Banks
deriving DecidableEq, Repr

/-- The state of a filter collaborator (10_state.md R57 a, 20_memory.md R88; log 1, 3). -/
inductive FilterState where
  /-- The identity filter, which has no state (R88). -/
  | identity
  /-- The instance HALF of 95_test_vectors.md P4, with its state word `y`. -/
  | half (y : Word)
  /-- Any filter at all, with the words presented to it since it was initialised, oldest first. -/
  | external (seen : List Word)
deriving DecidableEq, Repr

/-- An event of the history (20_memory.md R84). -/
inductive Event where
  /-- `RegRead(i)` that returned `w`. -/
  | read (i : RegIndex) (w : Word)
  /-- `RegWrite(i, w)`. -/
  | write (i : RegIndex) (w : Word)
  /-- `FILT_Q.sample(x)` that answered `y`. -/
  | filtQ (x y : Word)
  /-- `FILT_D.sample(x)` that answered `y`. -/
  | filtD (x y : Word)
  /-- `emit SetDuty(u, v, w)`. -/
  | setDuty (u v w : Word)
deriving DecidableEq, Repr

/-- What the outside does to the block: the two port transactions of 20_memory.md R70 and the reset input of
70_reset_and_hazards.md R280, asserted and released between two transactions (R281; log 6). -/
inductive Input where
  /-- `RegRead(i)`. -/
  | read (i : RegIndex)
  /-- `RegWrite(i, w)`. -/
  | write (i : RegIndex) (w : Word)
  /-- The reset input. -/
  | reset
deriving DecidableEq, Repr

/-- The state of the model. -/
structure State where
  /-- The block's registers and flags (10_state.md R20). -/
  block : Block
  /-- The collaborator `FILT_Q` (R57 a). -/
  filtQ : FilterState
  /-- The collaborator `FILT_D` (R57 a). -/
  filtD : FilterState
  /-- The event history, oldest first (20_memory.md R84). -/
  history : List Event
  /-- What the host has issued and the port has not accepted, the next to be accepted first (R80; log 4). -/
  pending : List Input
deriving DecidableEq, Repr

/-- A bank after reset: Position law, zeros, the four bounds unset (10_state.md R58). -/
def Bank.reset : Bank where
  law := .position
  target := 0x00000000#32
  kp := 0x00000000#32
  ki := 0x00000000#32
  kd := 0x00000000#32
  intHi := 0x7FC00000#32
  intLo := 0x7FC00000#32
  outHi := 0x7FC00000#32
  outLo := 0x7FC00000#32
  meas := 0x00000000#32
  err1 := 0x00000000#32
  err2 := 0x00000000#32
  integ := 0x00000000#32
  out := 0x00000000#32

/-- The block after reset (10_state.md R58, 70_reset_and_hazards.md R280). -/
def Block.reset : Block where
  illCmd := false
  illAcc := false
  theta := 0x00000000#32
  sin := 0x00000000#32
  cos := 0x00000000#32
  curU := 0x00000000#32
  curV := 0x00000000#32
  curW := 0x00000000#32
  curA := 0x00000000#32
  curB := 0x00000000#32
  curQ := 0x00000000#32
  curD := 0x00000000#32
  volD := 0x00000000#32
  volQ := 0x00000000#32
  volA := 0x00000000#32
  volB := 0x00000000#32
  dutyU := 0x00000000#32
  dutyV := 0x00000000#32
  dutyW := 0x00000000#32
  pid := ⟨.reset, .reset, .reset, .reset⟩

/-- The model's start: the block after reset, filters of unknown function to which nothing has been presented (log 3), an
empty history and nothing pending (log 4, 5). -/
def State.reset : State where
  block := .reset
  filtQ := .external []
  filtD := .external []
  history := []
  pending := []

end Sys2Proof.Machine
end

