-- ==== Sys2Proof/Machine/Operands.lean ====
section
/-! DEFINITION. The register map: names, indices, access kinds (10_state.md R22, R23, R40), the selection of a PID bank
(30_encoding.md R103), and the one accessor that reads a register and the one that stores into it. -/

namespace Sys2Proof.Machine

/-- The registers of a PID bank (10_state.md R40). -/
inductive BankReg where
  | pctrl | target | kp | ki | kd | intHi | intLo | outHi | outLo | meas | err1 | err2 | integ | out
deriving DecidableEq, Repr

/-- The mapped registers (10_state.md R22). A reserved index is no register. -/
inductive Reg where
  | blkid | cmd | status | theta | sin | cos
  | curU | curV | curW | curA | curB | curQ | curD
  | volD | volQ | volA | volB | dutyU | dutyV | dutyW
  /-- Register `f` of bank `PID[i]`. -/
  | bank (i : Fin 4) (f : BankReg)
deriving DecidableEq, Repr

/-- The offset `k` of a bank register (R40). -/
def BankReg.offset : BankReg → Nat
  | .pctrl => 0x0
  | .target => 0x1
  | .kp => 0x2
  | .ki => 0x3
  | .kd => 0x4
  | .intHi => 0x5
  | .intLo => 0x6
  | .outHi => 0x7
  | .outLo => 0x8
  | .meas => 0x9
  | .err1 => 0xA
  | .err2 => 0xB
  | .integ => 0xC
  | .out => 0xD

/-- The bank register at an offset; 0xE and 0xF are reserved (R40). -/
def BankReg.ofOffset (k : Nat) : Option BankReg :=
  match k with
  | 0x0 => some .pctrl
  | 0x1 => some .target
  | 0x2 => some .kp
  | 0x3 => some .ki
  | 0x4 => some .kd
  | 0x5 => some .intHi
  | 0x6 => some .intLo
  | 0x7 => some .outHi
  | 0x8 => some .outLo
  | 0x9 => some .meas
  | 0xA => some .err1
  | 0xB => some .err2
  | 0xC => some .integ
  | 0xD => some .out
  | _ => none

/-- The index of bank `i`'s first register, `0x40 + 0x10*i` (R40, 30_encoding.md R103). -/
def bankBase (i : Fin 4) : Nat := 0x40 + 0x10 * i.val

/-- The port index of a register (R22, R40). -/
def Reg.index : Reg → RegIndex
  | .blkid => 0x00#8
  | .cmd => 0x01#8
  | .status => 0x02#8
  | .theta => 0x04#8
  | .sin => 0x05#8
  | .cos => 0x06#8
  | .curU => 0x08#8
  | .curV => 0x09#8
  | .curW => 0x0A#8
  | .curA => 0x0B#8
  | .curB => 0x0C#8
  | .curQ => 0x0D#8
  | .curD => 0x0E#8
  | .volD => 0x10#8
  | .volQ => 0x11#8
  | .volA => 0x12#8
  | .volB => 0x13#8
  | .dutyU => 0x14#8
  | .dutyV => 0x15#8
  | .dutyW => 0x16#8
  | .bank i f => BitVec.ofNat 8 (bankBase i + f.offset)

/-- The bank register at index `n`, if `n` is in a bank and not reserved (R22, R40). -/
def bankRegAt (n : Nat) : Option Reg :=
  if 0x40 ≤ n ∧ n < 0x80 then
    match BankReg.ofOffset (n % 0x10) with
    | some f => some (.bank (Fin.ofNat 4 ((n - 0x40) / 0x10)) f)
    | none => none
  else none

/-- The register at a port index; `none` is a reserved index (R22, R23). -/
def Reg.ofIndex (i : RegIndex) : Option Reg :=
  match i.toNat with
  | 0x00 => some .blkid
  | 0x01 => some .cmd
  | 0x02 => some .status
  | 0x04 => some .theta
  | 0x05 => some .sin
  | 0x06 => some .cos
  | 0x08 => some .curU
  | 0x09 => some .curV
  | 0x0A => some .curW
  | 0x0B => some .curA
  | 0x0C => some .curB
  | 0x0D => some .curQ
  | 0x0E => some .curD
  | 0x10 => some .volD
  | 0x11 => some .volQ
  | 0x12 => some .volA
  | 0x13 => some .volB
  | 0x14 => some .dutyU
  | 0x15 => some .dutyV
  | 0x16 => some .dutyW
  | n => bankRegAt n

/-- The access kinds of R23; a reserved index is not one of them. -/
inductive Access where
  /-- Read only. -/
  | ro
  /-- Write only: `CMD`. -/
  | wo
  /-- Read and write. -/
  | rw
  /-- Read, write 1 to clear: `STATUS`. -/
  | rw1c
deriving DecidableEq, Repr

/-- The access kind of a bank register (R40). -/
def BankReg.access : BankReg → Access
  | .pctrl | .target | .kp | .ki | .kd | .intHi | .intLo | .outHi | .outLo | .meas => .rw
  | .err1 | .err2 | .integ | .out => .ro

/-- The access kind of a register (R22, R40). -/
def Reg.access : Reg → Access
  | .blkid => .ro
  | .cmd => .wo
  | .status => .rw1c
  | .sin | .cos | .curQ | .curD | .dutyU | .dutyV | .dutyW => .ro
  | .theta | .curU | .curV | .curW | .curA | .curB | .volD | .volQ | .volA | .volB => .rw
  | .bank _ f => f.access

/-- The constant of `BLKID` (R26). -/
def blkidWord : Word := 0x43500401#32

/-! ## Bank selection -/

/-- Bank `PID[i]`. -/
def Banks.get (b : Banks) (i : Fin 4) : Bank :=
  match i with
  | 0 => b.bank0
  | 1 => b.bank1
  | 2 => b.bank2
  | 3 => b.bank3

/-- Bank `PID[i]` replaced. -/
def Banks.set (b : Banks) (i : Fin 4) (v : Bank) : Banks :=
  match i with
  | 0 => { b with bank0 := v }
  | 1 => { b with bank1 := v }
  | 2 => { b with bank2 := v }
  | 3 => { b with bank3 := v }

/-- Bank `i` of the block. -/
def Block.bank (b : Block) (i : Fin 4) : Bank := b.pid.get i

/-- Bank `i` of the block replaced. -/
def Block.setBank (b : Block) (i : Fin 4) (v : Bank) : Block := { b with pid := b.pid.set i v }

/-! ## Reading -/

/-- The word `PCTRL` reads as: bit 0 is `LAW`, bits 31:1 read 0 (R41). -/
def Law.word : Law → Word
  | .position => 0x00000000#32
  | .delta => 0x00000001#32

/-- The law a word written to `PCTRL` selects: its bit 0, the others ignored (R41). -/
def Law.ofWord (w : Word) : Law := if w.getLsbD 0 then .delta else .position

/-- The word of a bank register (R40). -/
def Bank.readReg (b : Bank) : BankReg → Word
  | .pctrl => b.law.word
  | .target => b.target
  | .kp => b.kp
  | .ki => b.ki
  | .kd => b.kd
  | .intHi => b.intHi
  | .intLo => b.intLo
  | .outHi => b.outHi
  | .outLo => b.outLo
  | .meas => b.meas
  | .err1 => b.err1
  | .err2 => b.err2
  | .integ => b.integ
  | .out => b.out

/-- The word `STATUS` reads as: `ILLCMD` in bit 0, `ILLACC` in bit 1, bits 31:2 zero (R25). -/
def Block.statusWord (b : Block) : Word := (0#30 ++ BitVec.ofBool b.illAcc) ++ BitVec.ofBool b.illCmd

/-- The word a `RegRead` of a mapped register returns (R23): the stored word, or what `BLKID` (R26), `CMD` (R24), `STATUS`
(R25) and `PCTRL` (R41) read as. -/
def Block.readReg (b : Block) : Reg → Word
  | .blkid => blkidWord
  | .cmd => 0x00000000#32
  | .status => b.statusWord
  | .theta => b.theta
  | .sin => b.sin
  | .cos => b.cos
  | .curU => b.curU
  | .curV => b.curV
  | .curW => b.curW
  | .curA => b.curA
  | .curB => b.curB
  | .curQ => b.curQ
  | .curD => b.curD
  | .volD => b.volD
  | .volQ => b.volQ
  | .volA => b.volA
  | .volB => b.volB
  | .dutyU => b.dutyU
  | .dutyV => b.dutyV
  | .dutyW => b.dutyW
  | .bank i f => (b.bank i).readReg f

/-! ## Storing a host's word into an RW register -/

/-- A host write to a bank register: an RW register takes the word unchanged (`PCTRL` its bit 0), an RO register nothing
(R23, R41). -/
def Bank.storeReg (b : Bank) (f : BankReg) (w : Word) : Bank :=
  match f with
  | .pctrl => { b with law := Law.ofWord w }
  | .target => { b with target := w }
  | .kp => { b with kp := w }
  | .ki => { b with ki := w }
  | .kd => { b with kd := w }
  | .intHi => { b with intHi := w }
  | .intLo => { b with intLo := w }
  | .outHi => { b with outHi := w }
  | .outLo => { b with outLo := w }
  | .meas => { b with meas := w }
  | .err1 | .err2 | .integ | .out => b

/-- A host write to an RW register takes the word bit for bit (R23, R35); every other kind stores nothing here: the effect
of a write to `CMD`, `STATUS` or an RO register is the port's (Machine/Port.lean). -/
def Block.storeReg (b : Block) (r : Reg) (w : Word) : Block :=
  match r with
  | .theta => { b with theta := w }
  | .curU => { b with curU := w }
  | .curV => { b with curV := w }
  | .curW => { b with curW := w }
  | .curA => { b with curA := w }
  | .curB => { b with curB := w }
  | .volD => { b with volD := w }
  | .volQ => { b with volQ := w }
  | .volA => { b with volA := w }
  | .volB => { b with volB := w }
  | .bank i f => b.setBank i ((b.bank i).storeReg f w)
  | .blkid | .cmd | .status | .sin | .cos | .curQ | .curD | .dutyU | .dutyV | .dutyW => b

end Sys2Proof.Machine
end

