-- ==== Sys2Proof/Machine/Flags.lean ====
section
/-! DEFINITION. The only flags of the block, `STATUS.ILLCMD` and `STATUS.ILLACC` (10_state.md R25, R55): sticky, set by the
error events of 60_exceptions.md R250, cleared by writing 1. No command computes a flag. -/

namespace Sys2Proof.Machine

/-- `flag STATUS.ILLCMD` (00_scope.md R12, 60_exceptions.md R251). -/
def Block.flagIllCmd (b : Block) : Block := { b with illCmd := true }

/-- `flag STATUS.ILLACC` (60_exceptions.md R252). -/
def Block.flagIllAcc (b : Block) : Block := { b with illAcc := true }

/-- `RegWrite(0x02, w)`: each flag is cleared by a 1 in its bit, bits 31:2 are ignored (R25). -/
def Block.clearFlags (b : Block) (w : Word) : Block :=
  { b with illCmd := b.illCmd && !w.getLsbD 0, illAcc := b.illAcc && !w.getLsbD 1 }

end Sys2Proof.Machine
end

