-- ==== Sys2Proof/Machine/Ops.lean ====
section
/-! DEFINITION. The operations the commands and the port share: error events, writing results, the exchange with the two
filters, the duty output, the event history, reset. -/

namespace Sys2Proof.Machine

/-! ## Results a command writes -/

/-- `SIN`, `COS` take a pair (44_sincos.md R210). -/
def Block.setAngle (b : Block) (p : Word × Word) : Block := { b with sin := p.1, cos := p.2 }

/-- `CUR_A`, `CUR_B` take a stationary-frame pair (42_transform.md R171). -/
def Block.setStationary (b : Block) (ia ib : Word) : Block := { b with curA := ia, curB := ib }

/-- `CUR_Q`, `CUR_D` take the filters' answers (42_transform.md R173). -/
def Block.setRotating (b : Block) (yq yd : Word) : Block := { b with curQ := yq, curD := yd }

/-- `VOL_A`, `VOL_B` take the inverse Park results (43_synthesis.md R191). -/
def Block.setVoltage (b : Block) (ua ub : Word) : Block := { b with volA := ua, volB := ub }

/-- `DUTY_U`, `DUTY_V`, `DUTY_W` take three duties (43_synthesis.md R193). -/
def Block.setDuties (b : Block) (u v w : Word) : Block := { b with dutyU := u, dutyV := v, dutyW := w }

/-! ## Error events -/

/-- The error event `ILLCMD`: its sticky bit and nothing else (60_exceptions.md R250, R251, R256). -/
def raiseIllCmd (s : State) : State := { s with block := s.block.flagIllCmd }

/-- The error event `ILLACC`: its sticky bit and nothing else (60_exceptions.md R250, R252, R256). -/
def raiseIllAcc (s : State) : State := { s with block := s.block.flagIllAcc }

/-! ## History and inputs -/

/-- One event added to the history (20_memory.md R84). -/
def record (e : Event) (s : State) : State := { s with history := s.history ++ [e] }

/-- The inputs left after the port accepted the first (20_memory.md R80). -/
def withPending (rest : List Input) (s : State) : State := { s with pending := rest }

/-- The reset input: the block takes its reset values; the collaborators, what the driver holds and the history are not
touched, and nothing is exchanged or emitted (70_reset_and_hazards.md R280, R282). -/
def resetBlock (s : State) : State := { s with block := .reset }

/-! ## The collaborators -/

/-- The platform of this hardware: `SINCOS` is `SINCOS_REF` (44_sincos.md R216), the filters are whatever is injected (R7;
log 1, 8). -/
def hardware : Platform where
  sincos := sincosUnit
  filtQ := Config.filtQ
  filtD := Config.filtD

/-- One step of the instance HALF: `y <- fadd(y, fmul(C_HALF, fsub(x, y)))` (95_test_vectors.md P4). -/
def halfNext (y x : Word) : Word := fadd y (fmul cHalf (fsub x y))

/-- `FILT_X.sample(x)`: the next state of the filter and its answer (20_memory.md R88). `answer` is the injected function of
this port. -/
def FilterState.sample (answer : List Word → Word) (f : FilterState) (x : Word) : FilterState × Word :=
  match f with
  | .identity => (.identity, x)
  | .half y => (.half (halfNext y x), halfNext y x)
  | .external seen => (.external (seen ++ [x]), answer (seen ++ [x]))

/-- `yq <- FILT_Q.sample(qraw)`, then `yd <- FILT_D.sample(draw)`, then `CUR_Q <- yq`, `CUR_D <- yd`; both exchanges are
recorded in that order (42_transform.md R173, 20_memory.md R84). -/
def exchangeFilters (p : Platform) (qraw draw : Word) (s : State) : State :=
  let q := s.filtQ.sample p.filtQ qraw
  let d := s.filtD.sample p.filtD draw
  { s with
    block := s.block.setRotating q.2 d.2
    filtQ := q.1
    filtD := d.1
    history := s.history ++ [.filtQ qraw q.2, .filtD draw d.2] }

/-- `DUTY_U`, `DUTY_V`, `DUTY_W` written, then `emit SetDuty` of the same three words (43_synthesis.md R193, 20_memory.md
R89). -/
def emitDuty (u v w : Word) (s : State) : State :=
  { s with block := s.block.setDuties u v w, history := s.history ++ [.setDuty u v w] }

/-! ## Writing results on the state -/

/-- `SIN <- sn ; COS <- cs` (44_sincos.md R211). -/
def putAngle (p : Word × Word) (s : State) : State := { s with block := s.block.setAngle p }

/-- `CUR_A <- ia ; CUR_B <- ib` (42_transform.md R171). -/
def putStationary (ia ib : Word) (s : State) : State := { s with block := s.block.setStationary ia ib }

/-- `VOL_A <- ua ; VOL_B <- ub` (43_synthesis.md R191). -/
def putVoltage (ua ub : Word) (s : State) : State := { s with block := s.block.setVoltage ua ub }

/-- Bank `i` replaced; no other bank changes (10_state.md R50). -/
def putBank (i : Fin 4) (v : Bank) (s : State) : State := { s with block := s.block.setBank i v }

end Sys2Proof.Machine
end

