-- ==== Sys2Proof/Machine/Pid.lean ====
section
/-! DEFINITION. The PID controller: `PIDC` (41_pid.md R152 to R157). -/

namespace Sys2Proof.Machine

/-- A pair of bounds acts only when both are set, and a bound is unset when it is any NaN (10_state.md R44, R45). -/
def clampIfSet (x lo hi : Word) : Word := if !isNaN lo && !isNaN hi then clamp x lo hi else x

/-- `e <- fsub(TARGET, MEAS)` (41_pid.md R153). -/
def pidError (b : Bank) : Word := fsub b.target b.meas

/-- `g`: the integral after this call's accumulation and clamp (41_pid.md R154). -/
def positionIntegral (b : Bank) (e : Word) : Word := clampIfSet (fadd b.integ e) b.intLo b.intHi

/-- The output of the Position law, with `ERR1` as before the command (41_pid.md R154). -/
def positionOutput (b : Bank) (e : Word) : Word :=
  let p := fmul b.kp e
  let q := fmul b.ki (positionIntegral b e)
  let d := fmul b.kd (fsub e b.err1)
  fadd (fadd p q) d

/-- The increment of the Delta law, with `ERR1` and `ERR2` as before the command (41_pid.md R155). -/
def deltaIncrement (b : Bank) (e : Word) : Word :=
  let p := fmul b.kp (fsub e b.err1)
  let q := fmul b.ki e
  let d := fmul b.kd (fadd (fsub e (fmul cTwo b.err1)) b.err2)
  fadd (fadd p q) d

/-- The output of the Delta law: the increment added to the last output (41_pid.md R155). -/
def deltaOutput (b : Bank) (e : Word) : Word := fadd b.out (deltaIncrement b e)

/-- The output clamp, after either law (41_pid.md R156). -/
def outputClamp (b : Bank) (o : Word) : Word := clampIfSet o b.outLo b.outHi

/-- The bank after a call under the Position law: `INTEG`, `ERR1`, `OUT` are written, `ERR2` is not (41_pid.md R154,
R157). -/
def positionCall (b : Bank) : Bank :=
  let e := pidError b
  { b with integ := positionIntegral b e, err1 := e, out := outputClamp b (positionOutput b e) }

/-- The bank after a call under the Delta law: `ERR2`, `ERR1`, `OUT` are written, `INTEG` is not (41_pid.md R155, R157). -/
def deltaCall (b : Bank) : Bank :=
  let e := pidError b
  { b with err2 := b.err1, err1 := e, out := outputClamp b (deltaOutput b e) }

/-- QDS's `compute` on a bank, by the law then selected (41_pid.md R152, R158). -/
def pidCompute (b : Bank) : Bank :=
  match b.law with
  | .position => positionCall b
  | .delta => deltaCall b

/-- `PIDC idx` advances bank `idx` and nothing else (41_pid.md R152, 10_state.md R50). -/
def execPidc (idx : Fin 4) (s : State) : Host.Outcome State Fault Refusal :=
  .next (putBank idx (pidCompute (s.block.bank idx)) s)

end Sys2Proof.Machine
end

