-- ==== Sys2Proof/Machine/SinCos.lean ====
section
/-! DEFINITION. The command `SINCOS` (44_sincos.md R211). -/

namespace Sys2Proof.Machine

/-- `(sn, cs) <- SINCOS(THETA) ; SIN <- sn ; COS <- cs` on a platform (44_sincos.md R211). -/
def execSincosOn (p : Platform) (s : State) : Host.Outcome State Fault Refusal :=
  .next (putAngle (p.sincos s.block.theta) s)

/-- `SINCOS` on this hardware (44_sincos.md R211, R216). -/
def execSincos (s : State) : Host.Outcome State Fault Refusal := execSincosOn hardware s

end Sys2Proof.Machine
end

