-- ==== Sys2Proof/Machine/Synthesis.lean ====
section
/-! DEFINITION. The voltage synthesis: `IPARK`, `ICLARKE`, `SYNTH` (43_synthesis.md). -/

namespace Sys2Proof.Machine

/-- The headroom scaling `fmul(v, C_099)` (43_synthesis.md R191, R192). -/
def headroom (v : Word) : Word := fmul v c099

/-- `fdiv(fadd(fmul(fneg(q), sn), fmul(d, cs)), C_TWO)`, of the scaled `d` and `q` (43_synthesis.md R191). -/
def iparkA (d q sn cs : Word) : Word := fdiv (fadd (fmul (fneg q) sn) (fmul d cs)) cTwo

/-- `fdiv(fadd(fmul(q, cs), fmul(d, sn)), C_TWO)`, of the scaled `d` and `q` (43_synthesis.md R191). -/
def iparkB (d q sn cs : Word) : Word := fdiv (fadd (fmul q cs) (fmul d sn)) cTwo

/-- `uu <- fadd(VOL_A, C_HALF)` (43_synthesis.md R193). -/
def dutyOfU (ua : Word) : Word := fadd ua cHalf

/-- `uv <- fadd(fadd(fdiv(fneg(VOL_A), C_TWO), fdiv(fmul(VOL_B, C_SQRT3), C_TWO)), C_HALF)` (43_synthesis.md R193). -/
def dutyOfV (ua ub : Word) : Word :=
  fadd (fadd (fdiv (fneg ua) cTwo) (fdiv (fmul ub cSqrt3) cTwo)) cHalf

/-- `uw <- fsub(fsub(C_ONE5, uu), uv)`, from the rounded `uu` and `uv` (43_synthesis.md R193). -/
def dutyOfW (uu uv : Word) : Word := fsub (fsub cOne5 uu) uv

/-- `IPARK` on a platform: `VOL_D` and `VOL_Q` themselves are not changed (43_synthesis.md R191). -/
def execIparkOn (p : Platform) (s : State) : Host.Outcome State Fault Refusal :=
  let sc := p.sincos s.block.theta
  let d := headroom s.block.volD
  let q := headroom s.block.volQ
  .next (putVoltage (iparkA d q sc.1 sc.2) (iparkB d q sc.1 sc.2) (putAngle sc s))

/-- `IPARK` on this hardware (43_synthesis.md R191). -/
def execIpark (s : State) : Host.Outcome State Fault Refusal := execIparkOn hardware s

/-- `ICLARKE`: three duties from the stationary voltages, and one `SetDuty` event (43_synthesis.md R193). -/
def execIclarke (s : State) : Host.Outcome State Fault Refusal :=
  let uu := dutyOfU s.block.volA
  let uv := dutyOfV s.block.volA s.block.volB
  let uw := dutyOfW uu uv
  .next (emitDuty uu uv uw s)

/-- `SYNTH` on a platform: the inverse Clarke half uses the pair this command just computed (43_synthesis.md R195). -/
def execSynthOn (p : Platform) (s : State) : Host.Outcome State Fault Refusal :=
  let sc := p.sincos s.block.theta
  let d := headroom s.block.volD
  let q := headroom s.block.volQ
  let ua := iparkA d q sc.1 sc.2
  let ub := iparkB d q sc.1 sc.2
  let uu := dutyOfU ua
  let uv := dutyOfV ua ub
  let uw := dutyOfW uu uv
  .next (emitDuty uu uv uw (putVoltage ua ub (putAngle sc s)))

/-- `SYNTH` on this hardware (43_synthesis.md R195). -/
def execSynth (s : State) : Host.Outcome State Fault Refusal := execSynthOn hardware s

end Sys2Proof.Machine
end

