-- ==== Sys2Proof/Machine/System.lean ====
section
/-! DEFINITION. The system family: `NOP` (45_system.md). -/

namespace Sys2Proof.Machine

/-- `NOP`: nothing is read and nothing is written (45_system.md R241). -/
def execNop (s : State) : Host.Outcome State Fault Refusal := .next s

end Sys2Proof.Machine
end

