-- ==== Sys2Proof/Machine/Transform.lean ====
section
/-! DEFINITION. The forward transform: `CLARKE`, `PARK`, `UPDCUR` (42_transform.md). -/

namespace Sys2Proof.Machine

/-- `fdiv(fadd(CUR_U, fmul(C_TWO, CUR_V)), C_SQRT3)` (42_transform.md R171). -/
def clarkeB (iu iv : Word) : Word := fdiv (fadd iu (fmul cTwo iv)) cSqrt3

/-- `qraw <- fsub(fmul(b, cs), fmul(a, sn))` (42_transform.md R173). -/
def parkQ (a b sn cs : Word) : Word := fsub (fmul b cs) (fmul a sn)

/-- `draw <- fadd(fmul(b, sn), fmul(a, cs))` (42_transform.md R173). -/
def parkD (a b sn cs : Word) : Word := fadd (fmul b sn) (fmul a cs)

/-- `CLARKE`: `CUR_A` is a copy of `CUR_U` bit for bit (42_transform.md R171). -/
def execClarke (s : State) : Host.Outcome State Fault Refusal :=
  .next (putStationary s.block.curU (clarkeB s.block.curU s.block.curV) s)

/-- `PARK` on a platform: both raw values are computed before either filter is called (42_transform.md R173). -/
def execParkOn (p : Platform) (s : State) : Host.Outcome State Fault Refusal :=
  let sc := p.sincos s.block.theta
  let qraw := parkQ s.block.curA s.block.curB sc.1 sc.2
  let draw := parkD s.block.curA s.block.curB sc.1 sc.2
  .next (exchangeFilters p qraw draw (putAngle sc s))

/-- `PARK` on this hardware (42_transform.md R173). -/
def execPark (s : State) : Host.Outcome State Fault Refusal := execParkOn hardware s

/-- `UPDCUR` on a platform: the Park half uses the pair this command just computed (42_transform.md R175). -/
def execUpdcurOn (p : Platform) (s : State) : Host.Outcome State Fault Refusal :=
  let a := s.block.curU
  let b := clarkeB s.block.curU s.block.curV
  let sc := p.sincos s.block.theta
  let qraw := parkQ a b sc.1 sc.2
  let draw := parkD a b sc.1 sc.2
  .next (exchangeFilters p qraw draw (putAngle sc (putStationary a b s)))

/-- `UPDCUR` on this hardware (42_transform.md R175). -/
def execUpdcur (s : State) : Host.Outcome State Fault Refusal := execUpdcurOn hardware s

end Sys2Proof.Machine
end

