-- ==== Sys2Proof/Machine/Dispatch.lean ====
section
/-! DEFINITION. The dispatch of a command to its meaning, one arm per row of the opcode table. -/

namespace Sys2Proof.Machine

/-- The effect of a command on the state, inside the `RegWrite` to `CMD` that carries it (30_encoding.md R100). -/
def exec (i : Instr) (s : State) : Host.Outcome State Fault Refusal :=
  match i with
  | .nop => Sys2Proof.Machine.execNop s
  | .sincos => Sys2Proof.Machine.execSincos s
  | .clarke => Sys2Proof.Machine.execClarke s
  | .park => Sys2Proof.Machine.execPark s
  | .updcur => Sys2Proof.Machine.execUpdcur s
  | .ipark => Sys2Proof.Machine.execIpark s
  | .iclarke => Sys2Proof.Machine.execIclarke s
  | .synth => Sys2Proof.Machine.execSynth s
  | .pidc idx => Sys2Proof.Machine.execPidc idx s

end Sys2Proof.Machine
end

