-- ==== Sys2Proof/Machine/Port.lean ====
section
/-! DEFINITION. The register port: what `RegRead`, `RegWrite` and the reset input do (10_state.md R23 to R26, 20_memory.md
R70 to R74). What a command does is an argument `run`, so that the port is one for every platform; without it, `run` is
`exec`, this hardware's (00_scope.md R7, R15). -/

namespace Sys2Proof.Machine

/-- The word `RegRead(i)` returns: 0 at a reserved index (10_state.md R23). -/
def readWord (i : RegIndex) (s : State) : Word :=
  match Reg.ofIndex i with
  | some r => s.block.readReg r
  | none => 0x00000000#32

/-- `RegRead(i)`: no effect but `ILLACC` at a reserved index; the transaction and the word it returns are recorded
(10_state.md R23, 20_memory.md R74, R84). -/
def acceptRead (i : RegIndex) (s : State) : State :=
  let t := record (.read i (readWord i s)) s
  match Reg.ofIndex i with
  | some _ => t
  | none => raiseIllAcc t

/-- A word written to `CMD`: a command runs to completion, any other word raises `ILLCMD` (10_state.md R24, 30_encoding.md
R102, R106). -/
def commandBy (run : Instr → State → Host.Outcome State Fault Refusal) (w : Word) (s : State) :
    Host.Outcome State Fault Refusal :=
  match decode w with
  | .ok i => run i s
  | .error _ => .next (raiseIllCmd s)

/-- The effect of `RegWrite(i, w)` by the access kind of its register (10_state.md R23, R25). -/
def writeRegBy (run : Instr → State → Host.Outcome State Fault Refusal) (i : RegIndex) (w : Word) (s : State) :
    Host.Outcome State Fault Refusal :=
  match Reg.ofIndex i with
  | none => .next (raiseIllAcc s)
  | some r =>
    match r.access with
    | .ro => .next (raiseIllAcc s)
    | .wo => commandBy run w s
    | .rw => .next { s with block := s.block.storeReg r w }
    | .rw1c => .next { s with block := s.block.clearFlags w }

/-- `RegWrite(i, w)`: recorded, then performed, so that what a command does inside it stands after it in the history
(20_memory.md R84; log 5). -/
def acceptWriteBy (run : Instr → State → Host.Outcome State Fault Refusal) (i : RegIndex) (w : Word) (s : State) :
    Host.Outcome State Fault Refusal :=
  writeRegBy run i w (record (.write i w) s)

/-- What one input does (20_memory.md R80, 70_reset_and_hazards.md R281). -/
def acceptBy (run : Instr → State → Host.Outcome State Fault Refusal) (x : Input) (s : State) :
    Host.Outcome State Fault Refusal :=
  match x with
  | .read i => .next (acceptRead i s)
  | .write i w => acceptWriteBy run i w s
  | .reset => .next (resetBlock s)

/-- The port accepts the first pending input; with none pending the block is idle and does nothing (20_memory.md R80,
70_reset_and_hazards.md R283; log 4). -/
def acceptNextBy (run : Instr → State → Host.Outcome State Fault Refusal) (s : State) :
    Host.Outcome State Fault Refusal :=
  match s.pending with
  | [] => .next s
  | x :: rest => acceptBy run x (withPending rest s)

/-- The effect of `RegWrite(i, w)` on this hardware (10_state.md R23). -/
def writeReg (i : RegIndex) (w : Word) (s : State) : Host.Outcome State Fault Refusal := writeRegBy exec i w s

/-- The port of this hardware accepts the first pending input (20_memory.md R80). -/
def acceptNext (s : State) : Host.Outcome State Fault Refusal := acceptNextBy exec s

/-- The transaction that carries a word to `CMD` (30_encoding.md R100). -/
def commandWrite (w : Word) : Input := .write Reg.cmd.index w

end Sys2Proof.Machine
end

