-- ==== Sys2Proof/Machine/Step.lean ====
section
/-! DEFINITION. One step of the machine: one input accepted to completion (00_scope.md R4, 20_memory.md R80). -/

namespace Sys2Proof.Machine

/-- One step. -/
def step (s : State) : Host.Outcome State Fault Refusal := acceptNext s

/-- The state in which the very next step runs the instruction of a table word: its `RegWrite` to `CMD` is put first among
the pending inputs, and nothing else changes (log 7). -/
def State.withFetchWord (s : State) (nbits w : Nat) : State :=
  { s with pending := commandWrite (tableWord nbits w) :: s.pending }

end Sys2Proof.Machine
end

