-- ==== Sys2Proof/Machine/Bus.lean ====
section
/-! DEFINITION. The bridge from a byte-addressed host bus to the register port (00_scope.md R11, 20_memory.md R72, R73). It
stands outside the block: an access becomes one port transaction or none (log 10). -/

namespace Sys2Proof.Machine

/-- The four bytes of a word, the one at the lowest address first: little-endian (20_memory.md R72). -/
def wordBytes (w : Word) : List Byte :=
  [w.extractLsb' 0 8, w.extractLsb' 8 8, w.extractLsb' 16 8, w.extractLsb' 24 8]

/-- The word of four bytes, the first from the lowest address (20_memory.md R72). -/
def wordOfBytes (b0 b1 b2 b3 : Byte) : Word := (b3 ++ b2 ++ b1) ++ b0

/-- The register index of a byte offset (20_memory.md R72). -/
def indexOfOffset (offset : Nat) : RegIndex := BitVec.ofNat 8 (offset / 4)

/-- The port transaction of an access: `MemRead(4*i, 4)` is `RegRead(i)`, `MemWrite(4*i, 4, v)` is `RegWrite(i, v)`
(00_scope.md R11), and any other access performs none (20_memory.md R73). -/
def busTransaction (a : BusAccess) : Option Input :=
  if a.wf then
    match a.data with
    | none => some (.read (indexOfOffset a.offset))
    | some [b0, b1, b2, b3] => some (.write (indexOfOffset a.offset) (wordOfBytes b0 b1 b2 b3))
    | some _ => none
  else none

/-- The access of an absolute address, where the platform puts the block (20_memory.md R72, 93_implementation_defined.md
U6). -/
def accessAt (address size : Nat) (data : Option (List Byte)) : Option BusAccess :=
  if Config.blockBase ≤ address then some ⟨address - Config.blockBase, size, data⟩ else none

/-- The host issues inputs after those already pending (20_memory.md R80). -/
def State.issue (s : State) (xs : List Input) : State := { s with pending := s.pending ++ xs }

/-- The host performs a bus access: at most one transaction reaches the port (20_memory.md R73). -/
def State.busAccess (s : State) (a : BusAccess) : State := s.issue (busTransaction a).toList

end Sys2Proof.Machine
end

