-- ==== Sys2Proof/Machine/HostProgram.lean ====
section
/-! DEFINITION. The listing notation for host programs and the pseudo-instructions (30_encoding.md R109, R110). A program is
the host's list of port transactions (10_state.md R21); `State.issue` hands it to the port. -/

namespace Sys2Proof.Machine

/-- `wr <REG>, <value>` (R109). -/
def wr (r : Reg) (v : Word) : Input := .write r.index v

/-- `rd <REG>` (R109). -/
def rd (r : Reg) : Input := .read r.index

/-- `cmd <MNEMONIC>` and `cmd PIDC <i>` (R109). -/
def cmd (c : Instr) : Input := commandWrite (encode c)

/-- `set_target <i>, <v>` (R110). -/
def setTarget (i : Fin 4) (v : Word) : List Input := [wr (.bank i .target) v]

/-- `compute <i>, <m>` (R110). -/
def compute (i : Fin 4) (m : Word) : List Input := [wr (.bank i .meas) m, cmd (.pidc i), rd (.bank i .out)]

/-- `update_current <iu>, <iv>, <iw>` (R110). -/
def updateCurrent (iu iv iw : Word) : List Input := [wr .curU iu, wr .curV iv, wr .curW iw, cmd .updcur]

/-- `synthesize <ud>, <uq>, <th>` (R110). -/
def synthesize (ud uq th : Word) : List Input := [wr .volD ud, wr .volQ uq, wr .theta th, cmd .synth]

/-- `set_gains <i>, <kp>, <ki>, <kd>` (R110). -/
def setGains (i : Fin 4) (kp ki kd : Word) : List Input :=
  [wr (.bank i .kp) kp, wr (.bank i .ki) ki, wr (.bank i .kd) kd]

/-- `set_out_clamp <i>, <lo>, <hi>` (R110). -/
def setOutClamp (i : Fin 4) (lo hi : Word) : List Input := [wr (.bank i .outLo) lo, wr (.bank i .outHi) hi]

/-- `set_int_clamp <i>, <lo>, <hi>` (R110). -/
def setIntClamp (i : Fin 4) (lo hi : Word) : List Input := [wr (.bank i .intLo) lo, wr (.bank i .intHi) hi]

end Sys2Proof.Machine
end

