-- ==== Sys2Proof/Machine/Platform.lean ====
section
/-! DEFINITION. The step relation with its parameters as an argument (00_scope.md R7, R15, 44_sincos.md R212): the commands
and the step on any platform, so that a claim can be stated of every unit that meets the contract of `SINCOS`. -/

namespace Sys2Proof.Machine

/-- The effect of a command on a platform. The four that call no parameter are the same on all. -/
def execOn (p : Platform) (i : Instr) (s : State) : Host.Outcome State Fault Refusal :=
  match i with
  | .nop => execNop s
  | .sincos => execSincosOn p s
  | .clarke => execClarke s
  | .park => execParkOn p s
  | .updcur => execUpdcurOn p s
  | .ipark => execIparkOn p s
  | .iclarke => execIclarke s
  | .synth => execSynthOn p s
  | .pidc idx => execPidc idx s

/-- One step on a platform. -/
def stepOn (p : Platform) (s : State) : Host.Outcome State Fault Refusal := acceptNextBy (execOn p) s

end Sys2Proof.Machine
end

