-- ==== Sys2Proof/Safety.lean ====
section
/-! DEFINITION. The terms claims use: the invariant every step keeps, what the collaborators saw in a history, the contract
of `SINCOS`, and a run without error events. -/

namespace Sys2Proof.Machine

/-! ## What the collaborators saw -/

/-- The words presented at the Q filter port, oldest first (20_memory.md R84, R88). -/
def presentedQ (h : List Event) : List Word :=
  h.filterMap fun e => match e with
    | .filtQ x _ => some x
    | _ => none

/-- The words presented at the D filter port, oldest first. -/
def presentedD (h : List Event) : List Word :=
  h.filterMap fun e => match e with
    | .filtD x _ => some x
    | _ => none

/-- The words answered at the Q filter port, oldest first. -/
def answeredQ (h : List Event) : List Word :=
  h.filterMap fun e => match e with
    | .filtQ _ y => some y
    | _ => none

/-- The words answered at the D filter port, oldest first. -/
def answeredD (h : List Event) : List Word :=
  h.filterMap fun e => match e with
    | .filtD _ y => some y
    | _ => none

/-- The duties emitted, oldest first: the driver holds the last of them (10_state.md R57 b, 20_memory.md R89). -/
def emittedDuties (h : List Event) : List (Word × Word × Word) :=
  h.filterMap fun e => match e with
    | .setDuty u v w => some (u, v, w)
    | _ => none

/-! ## The invariant -/

/-- A word that no arithmetic result contradicts: if it is a NaN, it is the canonical one (40_numerics.md R124). -/
def canonical (w : Word) : Prop := isNaN w = true → w = canonicalNaN

/-- The read-only registers of a bank are results of arithmetic (10_state.md R35, R47 to R49). -/
structure Bank.ResultsCanonical (b : Bank) : Prop where
  err1 : canonical b.err1
  err2 : canonical b.err2
  integ : canonical b.integ
  out : canonical b.out

/-- What every reachable state satisfies, because the host cannot write the read-only registers (10_state.md R23). -/
structure State.Inv (s : State) : Prop where
  /-- `SIN`, `COS` are the reset zeros or a pair the sine/cosine unit returned (R28). -/
  angle : (s.block.sin = 0#32 ∧ s.block.cos = 0#32) ∨ ∃ theta, (s.block.sin, s.block.cos) = sincosUnit theta
  /-- `CUR_Q`, `CUR_D` are the reset zeros or the last answers of the filters (R31). -/
  rotating : (s.block.curQ = 0#32 ∧ s.block.curD = 0#32) ∨
    ((answeredQ s.history).getLast? = some s.block.curQ ∧ (answeredD s.history).getLast? = some s.block.curD)
  /-- `DUTY_U`, `DUTY_V`, `DUTY_W` are the reset zeros or the last words emitted on the duty port (R34). -/
  duties : (s.block.dutyU = 0#32 ∧ s.block.dutyV = 0#32 ∧ s.block.dutyW = 0#32) ∨
    (emittedDuties s.history).getLast? = some (s.block.dutyU, s.block.dutyV, s.block.dutyW)
  /-- The Q filter has seen exactly what the history says was presented to it (R57 a). -/
  seenQ : ∀ seen, s.filtQ = .external seen → seen = presentedQ s.history
  /-- The same of the D filter. -/
  seenD : ∀ seen, s.filtD = .external seen → seen = presentedD s.history
  /-- The results of the four banks hold no NaN but the canonical one (R35). -/
  results : ∀ i, (s.block.bank i).ResultsCanonical

/-! ## The contract of SINCOS -/

/-- Clause (b): a NaN or an infinity gives the canonical NaN twice (44_sincos.md R212). -/
def SincosNonFinite (f : Word → Word × Word) : Prop :=
  ∀ theta, isFinite theta = false → f theta = (canonicalNaN, canonicalNaN)

/-- Clause (c): a finite word gives two finite words of value in [-1, 1] (44_sincos.md R212). -/
def SincosBounded (f : Word → Word × Word) : Prop :=
  ∀ theta, isFinite theta = true →
    isFinite (f theta).1 = true ∧ isFinite (f theta).2 = true ∧ |val (f theta).1| ≤ 1 ∧ |val (f theta).2| ≤ 1

/-- Clause (d): the accuracy (44_sincos.md R212). -/
def SincosAccurate (f : Word → Word × Word) : Prop :=
  ∀ theta, isFinite theta = true →
    |((val (f theta).1 : ℚ) : ℝ) - Real.sin ((val theta : ℚ) : ℝ)| ≤ 2 ^ (-20 : ℤ) + |((val theta : ℚ) : ℝ)| * 2 ^ (-23 : ℤ) ∧
    |((val (f theta).2 : ℚ) : ℝ) - Real.cos ((val theta : ℚ) : ℝ)| ≤ 2 ^ (-20 : ℤ) + |((val theta : ℚ) : ℝ)| * 2 ^ (-23 : ℤ)

/-- Clause (e): the two zeros (44_sincos.md R212). -/
def SincosZero (f : Word → Word × Word) : Prop :=
  f 0x00000000#32 = (0x00000000#32, 0x3F800000#32) ∧ f 0x80000000#32 = (0x00000000#32, 0x3F800000#32)

/-- The contract of R212. Clause (a), purity, is that `f` is a function. The spec itself says of `SINCOS_REF` that clause (d)
"is not proved" (log 8). -/
structure SincosContract (f : Word → Word × Word) : Prop where
  nonFinite : SincosNonFinite f
  bounded : SincosBounded f
  accurate : SincosAccurate f
  zero : SincosZero f

/-- The commands that evaluate the angle, each once, with the word in `THETA` (44_sincos.md R210). -/
def angleCommands : List Instr := [.sincos, .park, .updcur, .ipark, .synth]

/-! ## The lists of 10_state.md R23 and 60_exceptions.md R252 -/

/-- The reserved indices as R23 lists them: 0x03, 0x07, 0x0F, 0x17 to 0x3F, offsets 0xE and 0xF of each bank, 0x80 to
0xFF. -/
def reservedIndex (i : RegIndex) : Bool :=
  let n := i.toNat
  n == 0x03 || n == 0x07 || n == 0x0F || (decide (0x17 ≤ n) && decide (n ≤ 0x3F)) ||
    (decide (0x40 ≤ n) && decide (n ≤ 0x7F) && decide (0xE ≤ n % 0x10)) || decide (0x80 ≤ n)

/-- The indices of the read-only registers as R252 (c) lists them: `BLKID`, `SIN`, `COS`, `CUR_Q`, `CUR_D`, `DUTY_U`,
`DUTY_V`, `DUTY_W`, and `ERR1`, `ERR2`, `INTEG`, `OUT` (offsets 0xA to 0xD) of each bank. -/
def readOnlyIndex (i : RegIndex) : Bool :=
  let n := i.toNat
  n == 0x00 || n == 0x05 || n == 0x06 || n == 0x0D || n == 0x0E || n == 0x14 || n == 0x15 || n == 0x16 ||
    (decide (0x40 ≤ n) && decide (n ≤ 0x7F) && decide (0xA ≤ n % 0x10) && decide (n % 0x10 ≤ 0xD))

/-- The RW registers no command writes (10_state.md R27, R29, R32; of a bank, all that 41_pid.md R152 does not list as
written). -/
def hostOnlyReg (r : Reg) : Prop :=
  r ∈ [Reg.theta, .curU, .curV, .curW, .volD, .volQ] ∨
    ∃ j f, f ∈ [BankReg.pctrl, .target, .kp, .ki, .kd, .intHi, .intLo, .outHi, .outLo, .meas] ∧ r = .bank j f

/-! ## Runs -/

/-- No error event has been raised since the flags were last clear (60_exceptions.md R250). -/
def State.clean (s : State) : Bool := !s.block.illCmd && !s.block.illAcc

end Sys2Proof.Machine
end

