-- ==== Sys2Proof/Certificates/Slice0/Obligations.lean ====
section
/-! DEFINITION. The statements for the provers, from the numbered rules of spec/. -/

open Sys2Proof Sys2Proof.Machine

/-! ## Encoding -/

/-- The words of the nine commands and the commands correspond one to one: a word decodes to a command exactly when it is
the word the encoder gives that command, with `PIDC`'s index at every value (30_encoding.md R102, R103, R104). -/
def Obligations.DecodeInvertsEncodeOnAllWords : Prop :=
  ∀ (w : Word) (i : Instr), decode w = .ok i ↔ w = encode i

/-- Decoding by the fields `opc = w[7:0]`, `idx = w[9:8]`, `w[31:8]` and `w[31:10]`, every other word illegal; equivalently by
the rows of the table: a word is the command of a row exactly when `(w and mask) = match` for it, an illegal word matches
none, and no word matches two (30_encoding.md R102). -/
def Obligations.DecodingFollowsFieldsAndRows : Prop :=
  (∀ w : Word,
    (w.toNat % 0x100 = 0x10 ∧ w.toNat / 0x400 = 0 ∧
      ∃ idx : Fin 4, idx.val = w.toNat / 0x100 % 4 ∧ decode w = .ok (.pidc idx)) ∨
    (w.toNat / 0x100 = 0 ∧ ∃ p : Nat × Instr,
      p ∈ [(0x00, Instr.nop), (0x01, .sincos), (0x02, .clarke), (0x03, .park), (0x04, .updcur), (0x05, .ipark),
        (0x06, .iclarke), (0x07, .synth)] ∧ w.toNat % 0x100 = p.1 ∧ decode w = .ok p.2) ∨
    ((∃ e, decode w = .error e) ∧
      ((0x08 ≤ w.toNat % 0x100 ∧ w.toNat % 0x100 ≤ 0x0F) ∨ 0x11 ≤ w.toNat % 0x100 ∨
        (w.toNat % 0x100 ≤ 0x07 ∧ w.toNat / 0x100 ≠ 0) ∨ (w.toNat % 0x100 = 0x10 ∧ w.toNat / 0x400 ≠ 0)))) ∧
  (∀ (w : Word) (i : Instr), decode w = .ok i → ∀ r ∈ opcodeTable, (w &&& r.mask = r.pattern ↔ r = i.row)) ∧
  (∀ (w : Word) (e : Illegal), decode w = .error e → ∀ r ∈ opcodeTable, w &&& r.mask ≠ r.pattern) ∧
  (∀ w : Word, ∀ r ∈ opcodeTable, ∀ r' ∈ opcodeTable, w &&& r.mask = r.pattern → w &&& r'.mask = r'.pattern → r = r')

/-- Words written out from the formats of 30_encoding.md R101 and the opcodes of R104 decode to their commands. -/
def Obligations.SampleWordsDecode : Prop :=
  decode 0b00000000000000000000000000000000#32 = .ok .nop ∧
  decode 0b00000000000000000000000000000001#32 = .ok .sincos ∧
  decode 0b00000000000000000000000000000011#32 = .ok .park ∧
  decode 0b00000000000000000000000000000111#32 = .ok .synth ∧
  decode 0b00000000000000000000001000010000#32 = .ok (.pidc 2) ∧
  decode 0b00000000000000000000001100010000#32 = .ok (.pidc 3)

/-! ## Steps -/

/-- When the host's next transaction writes a command's word to `CMD` (index 0x01), the step is that command's meaning, in
the state where the transaction has been recorded and taken from the pending list (10_state.md R24, 30_encoding.md
R100). That the write stands in the history before the events of its own command is the model's choice (log 5). -/
def Obligations.StepRunsTheDecodedCommand : Prop :=
  ∀ (s : State) (w : Word) (i : Instr) (rest : List Input),
    s.pending = .write 0x01#8 w :: rest → decode w = .ok i →
    step s = exec i { s with history := s.history ++ [.write 0x01#8 w], pending := rest }

/-- An illegal word sets `STATUS.ILLCMD` and has no other effect (60_exceptions.md R251, 30_encoding.md R106). -/
def Obligations.IllegalWordSetsOnlyIllcmd : Prop :=
  ∀ (s : State) (w : Word) (e : Illegal) (rest : List Input),
    s.pending = .write 0x01#8 w :: rest → decode w = .error e →
    step s = .next { s with
      block := { s.block with illCmd := true }
      history := s.history ++ [.write 0x01#8 w]
      pending := rest }

/-- Every step from every state answers a next state: no input makes the block stop (20_memory.md R86,
70_reset_and_hazards.md R290, R301). With nothing pending the block takes no step (00_scope.md R4, R283), which the model
writes as a step that answers the same state (log 4). -/
def Obligations.EveryStepAnswersANextState : Prop :=
  (∀ (i : Instr) (s : State), ∃ t, exec i s = .next t) ∧ (∀ s : State, ∃ t, step s = .next t) ∧
  ∀ s : State, s.pending = [] → step s = .next s

/-! ## What each command does -/

/-- `NOP` leaves the whole state as it is (45_system.md R241). -/
def Obligations.NopChangesNothing : Prop :=
  decode 0x00000000#32 = .ok .nop ∧ ∀ s : State, exec .nop s = .next s

/-- `SINCOS` writes `SIN` and `COS` from `THETA` by `SINCOS_REF` and nothing else (44_sincos.md R211, R216). -/
def Obligations.SincosWritesThePair : Prop :=
  decode 0x00000001#32 = .ok .sincos ∧ ∀ s : State, exec .sincos s = .next { s with
    block := { s.block with sin := (sincosRef s.block.theta).1, cos := (sincosRef s.block.theta).2 } }

/-- `CLARKE`: `CUR_A` a copy, `CUR_B` the quotient by `C_SQRT3` (42_transform.md R171). -/
def Obligations.ClarkeWritesTheStationaryPair : Prop :=
  decode 0x00000002#32 = .ok .clarke ∧ ∀ s : State, exec .clarke s = .next { s with
    block := { s.block with
      curA := s.block.curU
      curB := fdiv (fadd s.block.curU (fmul 0x40000000#32 s.block.curV)) 0x3FDDB3D7#32 } }

/-- `PARK`: both raw values from the old `CUR_A`, `CUR_B`, then the Q exchange, then the D exchange, and the answers stored
(42_transform.md R173). -/
def Obligations.ParkRotatesAndFilters : Prop :=
  decode 0x00000003#32 = .ok .park ∧ ∀ (s : State) (sn cs qraw draw yq yd : Word) (fq fd : FilterState),
    sincosRef s.block.theta = (sn, cs) →
    qraw = fsub (fmul s.block.curB cs) (fmul s.block.curA sn) →
    draw = fadd (fmul s.block.curB sn) (fmul s.block.curA cs) →
    s.filtQ.sample Config.filtQ qraw = (fq, yq) → s.filtD.sample Config.filtD draw = (fd, yd) →
    exec .park s = .next { s with
      block := { s.block with sin := sn, cos := cs, curQ := yq, curD := yd }
      filtQ := fq
      filtD := fd
      history := s.history ++ [.filtQ qraw yq, .filtD draw yd] }

/-- `UPDCUR`: the Clarke pair first, then the Park half on that pair; it does what `CLARKE` followed by `PARK` does
(42_transform.md R175). -/
def Obligations.UpdcurTransformsTheCurrents : Prop :=
  decode 0x00000004#32 = .ok .updcur ∧ (∀ s t : State, exec .clarke s = .next t → exec .updcur s = exec .park t) ∧
  ∀ (s : State) (b sn cs qraw draw yq yd : Word) (fq fd : FilterState),
    b = fdiv (fadd s.block.curU (fmul 0x40000000#32 s.block.curV)) 0x3FDDB3D7#32 →
    sincosRef s.block.theta = (sn, cs) →
    qraw = fsub (fmul b cs) (fmul s.block.curU sn) →
    draw = fadd (fmul b sn) (fmul s.block.curU cs) →
    s.filtQ.sample Config.filtQ qraw = (fq, yq) → s.filtD.sample Config.filtD draw = (fd, yd) →
    exec .updcur s = .next { s with
      block := { s.block with curA := s.block.curU, curB := b, sin := sn, cos := cs, curQ := yq, curD := yd }
      filtQ := fq
      filtD := fd
      history := s.history ++ [.filtQ qraw yq, .filtD draw yd] }

/-- `IPARK`: the 0.99 scaling, then the inverse rotation, halved (43_synthesis.md R191). -/
def Obligations.IparkWritesTheStationaryVoltages : Prop :=
  decode 0x00000005#32 = .ok .ipark ∧ ∀ (s : State) (sn cs d q : Word),
    sincosRef s.block.theta = (sn, cs) → d = fmul s.block.volD 0x3F7D70A4#32 → q = fmul s.block.volQ 0x3F7D70A4#32 →
    exec .ipark s = .next { s with
      block := { s.block with
        sin := sn
        cos := cs
        volA := fdiv (fadd (fmul (fneg q) sn) (fmul d cs)) 0x40000000#32
        volB := fdiv (fadd (fmul q cs) (fmul d sn)) 0x40000000#32 } }

/-- `ICLARKE`: the three duties, the third from the rounded first two, and one `SetDuty` event of the same words
(43_synthesis.md R193). -/
def Obligations.IclarkeWritesAndEmitsTheDuties : Prop :=
  decode 0x00000006#32 = .ok .iclarke ∧ ∀ (s : State) (uu uv uw : Word),
    uu = fadd s.block.volA 0x3F000000#32 →
    uv = fadd (fadd (fdiv (fneg s.block.volA) 0x40000000#32) (fdiv (fmul s.block.volB 0x3FDDB3D7#32) 0x40000000#32))
      0x3F000000#32 →
    uw = fsub (fsub 0x3FC00000#32 uu) uv →
    exec .iclarke s = .next { s with
      block := { s.block with dutyU := uu, dutyV := uv, dutyW := uw }
      history := s.history ++ [.setDuty uu uv uw] }

/-- `SYNTH`: the inverse Park pair, then the duties from that pair; it does what `IPARK` followed by `ICLARKE` does
(43_synthesis.md R195). -/
def Obligations.SynthWritesAndEmitsTheDuties : Prop :=
  decode 0x00000007#32 = .ok .synth ∧ (∀ s t : State, exec .ipark s = .next t → exec .synth s = exec .iclarke t) ∧
  ∀ (s : State) (sn cs d q ua ub uu uv uw : Word),
    sincosRef s.block.theta = (sn, cs) → d = fmul s.block.volD 0x3F7D70A4#32 → q = fmul s.block.volQ 0x3F7D70A4#32 →
    ua = fdiv (fadd (fmul (fneg q) sn) (fmul d cs)) 0x40000000#32 →
    ub = fdiv (fadd (fmul q cs) (fmul d sn)) 0x40000000#32 →
    uu = fadd ua 0x3F000000#32 →
    uv = fadd (fadd (fdiv (fneg ua) 0x40000000#32) (fdiv (fmul ub 0x3FDDB3D7#32) 0x40000000#32)) 0x3F000000#32 →
    uw = fsub (fsub 0x3FC00000#32 uu) uv →
    exec .synth s = .next { s with
      block := { s.block with sin := sn, cos := cs, volA := ua, volB := ub, dutyU := uu, dutyV := uv, dutyW := uw }
      history := s.history ++ [.setDuty uu uv uw] }

/-- `PIDC` under the Position law: the error, the accumulated and clamped integral, the three terms with the previous error
as it stood before, the output clamp, and what is written, each clamp spelled out with the upper test first (41_pid.md
R152, R153, R154, R156, R157, 40_numerics.md R132). -/
def Obligations.PidcPositionLaw : Prop :=
  ∀ (s : State) (i : Fin 4) (b : Bank) (e a g o : Word),
    s.block.bank i = b → b.law = .position → e = fsub b.target b.meas → a = fadd b.integ e →
    g = (if isNaN b.intLo = false ∧ isNaN b.intHi = false then
        if fgt a b.intHi = true then b.intHi else if flt a b.intLo = true then b.intLo else a
      else a) →
    o = fadd (fadd (fmul b.kp e) (fmul b.ki g)) (fmul b.kd (fsub e b.err1)) →
    exec (.pidc i) s = .next { s with
      block := s.block.setBank i { b with
        integ := g
        err1 := e
        out := if isNaN b.outLo = false ∧ isNaN b.outHi = false then
            if fgt o b.outHi = true then b.outHi else if flt o b.outLo = true then b.outLo else o
          else o } }

/-- `PIDC` under the Delta law: the increment formed completely from the two previous errors and added to the last output,
the output clamp spelled out with the upper test first, and what is written (41_pid.md R152, R153, R155, R156, R157,
40_numerics.md R132). -/
def Obligations.PidcDeltaLaw : Prop :=
  ∀ (s : State) (i : Fin 4) (b : Bank) (e o : Word),
    s.block.bank i = b → b.law = .delta → e = fsub b.target b.meas →
    o = fadd b.out (fadd (fadd (fmul b.kp (fsub e b.err1)) (fmul b.ki e))
      (fmul b.kd (fadd (fsub e (fmul 0x40000000#32 b.err1)) b.err2))) →
    exec (.pidc i) s = .next { s with
      block := s.block.setBank i { b with
        err2 := b.err1
        err1 := e
        out := if isNaN b.outLo = false ∧ isNaN b.outHi = false then
            if fgt o b.outHi = true then b.outHi else if flt o b.outLo = true then b.outLo else o
          else o } }

/-! ## Frames -/

/-- What the register-only commands leave: `SINCOS` every register but `SIN`, `COS`; `CLARKE` every register but `CUR_A`,
`CUR_B`; `IPARK` every register but `SIN`, `COS`, `VOL_A`, `VOL_B`; all of them the flags, the filters, the history and
the pending inputs (44_sincos.md R211, 42_transform.md R171, 43_synthesis.md R191). -/
def Obligations.RegisterOnlyCommandsFrame : Prop :=
  ∀ (c : Instr) (s t : State), c ∈ [Instr.nop, .sincos, .clarke, .ipark] → exec c s = .next t →
    t.filtQ = s.filtQ ∧ t.filtD = s.filtD ∧ t.history = s.history ∧ t.pending = s.pending ∧
    t.block.illCmd = s.block.illCmd ∧ t.block.illAcc = s.block.illAcc ∧
    ∀ r : Reg,
      (c = .sincos → r ≠ .sin ∧ r ≠ .cos) → (c = .clarke → r ≠ .curA ∧ r ≠ .curB) →
      (c = .ipark → r ≠ .sin ∧ r ≠ .cos ∧ r ≠ .volA ∧ r ≠ .volB) →
      t.block.readReg r = s.block.readReg r

/-- What the commands with an output leave: `PARK` every register but `SIN`, `COS`, `CUR_Q`, `CUR_D`; `UPDCUR` those and
`CUR_A`, `CUR_B`; `ICLARKE` every register but the three duties; `SYNTH` every register but those, `SIN`, `COS`, `VOL_A`,
`VOL_B`; all of them the flags and the pending inputs, the first two the duties emitted so far, the last two the filters
(42_transform.md R173, R175, 43_synthesis.md R193, R195). -/
def Obligations.OutputCommandsFrame : Prop :=
  ∀ (c : Instr) (s t : State), c ∈ [Instr.park, .updcur, .iclarke, .synth] → exec c s = .next t →
    t.pending = s.pending ∧ t.block.illCmd = s.block.illCmd ∧ t.block.illAcc = s.block.illAcc ∧
    (c = .iclarke ∨ c = .synth → t.filtQ = s.filtQ ∧ t.filtD = s.filtD) ∧
    (c = .park ∨ c = .updcur → emittedDuties t.history = emittedDuties s.history) ∧
    ∀ r : Reg,
      (c = .park → r ≠ .sin ∧ r ≠ .cos ∧ r ≠ .curQ ∧ r ≠ .curD) →
      (c = .updcur → r ≠ .sin ∧ r ≠ .cos ∧ r ≠ .curQ ∧ r ≠ .curD ∧ r ≠ .curA ∧ r ≠ .curB) →
      (c = .iclarke → r ≠ .dutyU ∧ r ≠ .dutyV ∧ r ≠ .dutyW) →
      (c = .synth → r ≠ .sin ∧ r ≠ .cos ∧ r ≠ .volA ∧ r ≠ .volB ∧ r ≠ .dutyU ∧ r ≠ .dutyV ∧ r ≠ .dutyW) →
      t.block.readReg r = s.block.readReg r

/-- `PIDC i` leaves every register but `ERR1`, `OUT` of bank `i`, `INTEG` under the Position law and `ERR2` under the Delta
law; the flags, the filters, the history and the pending inputs (41_pid.md R152). -/
def Obligations.PidcFrame : Prop :=
  ∀ (i : Fin 4) (s t : State), exec (.pidc i) s = .next t →
    t.filtQ = s.filtQ ∧ t.filtD = s.filtD ∧ t.history = s.history ∧ t.pending = s.pending ∧
    t.block.illCmd = s.block.illCmd ∧ t.block.illAcc = s.block.illAcc ∧
    ∀ r : Reg, r ≠ .bank i .err1 → r ≠ .bank i .out →
      ((s.block.bank i).law = .position → r ≠ .bank i .integ) → ((s.block.bank i).law = .delta → r ≠ .bank i .err2) →
      t.block.readReg r = s.block.readReg r

/-! ## Rules of the whole machine -/

/-- No command writes `THETA`, `CUR_U`, `CUR_V`, `CUR_W`, `VOL_D`, `VOL_Q` or a bank's `PCTRL`, `TARGET`, gains, bounds or
`MEAS` (10_state.md R27, R29, R32, and the lists of what each command writes: 41_pid.md R152, 42_transform.md R171, R173,
R175, 43_synthesis.md R191, R193, R195, 44_sincos.md R211, 45_system.md R241). -/
def Obligations.NoCommandWritesAHostRegister : Prop :=
  ∀ (c : Instr) (s t : State) (r : Reg), hostOnlyReg r → exec c s = .next t → t.block.readReg r = s.block.readReg r

/-- `CUR_W` is read by no command and written by none: with another `CUR_W` a command does the same (10_state.md R29). -/
def Obligations.NoCommandReadsOrWritesCurW : Prop :=
  ∀ (c : Instr) (s t : State) (w : Word), exec c s = .next t →
    exec c { s with block := { s.block with curW := w } } = .next { t with block := { t.block with curW := w } }

/-- No command reads `SIN` or `COS`: with others in their place a command that evaluates the angle leaves the same state,
these two registers included, and any other leaves the same state but for these two, which it does not write (10_state.md
R28). -/
def Obligations.NoCommandReadsSinOrCos : Prop :=
  ∀ (c : Instr) (s t : State) (x y : Word), exec c s = .next t →
    (c ∈ [Instr.sincos, .park, .updcur, .ipark, .synth] →
      exec c { s with block := { s.block with sin := x, cos := y } } = .next t) ∧
    (c ∉ [Instr.sincos, .park, .updcur, .ipark, .synth] →
      t.block.sin = s.block.sin ∧ t.block.cos = s.block.cos ∧
      exec c { s with block := { s.block with sin := x, cos := y } } =
        .next { t with block := { t.block with sin := x, cos := y } })

/-- The banks are identical and independent: `PIDC i` leaves every other bank and all registers outside the banks, what it
makes of a bank depends on that bank alone and not on which of the four it is, and a `RegWrite` into bank `i` changes no
other bank and no register outside the banks but `STATUS.ILLACC` (10_state.md R50). -/
def Obligations.BanksAreIndependent : Prop :=
  (∀ (i : Fin 4) (s t : State), exec (.pidc i) s = .next t →
    (∀ j, j ≠ i → t.block.bank j = s.block.bank j) ∧ { t.block with pid := s.block.pid } = s.block) ∧
  (∀ (i i' : Fin 4) (s s' t t' : State), s.block.bank i = s'.block.bank i' →
    exec (.pidc i) s = .next t → exec (.pidc i') s' = .next t' → t.block.bank i = t'.block.bank i') ∧
  (∀ (i : Fin 4) (x : RegIndex) (w : Word) (s t : State), 0x40 + 0x10 * i.val ≤ x.toNat → x.toNat ≤ 0x4F + 0x10 * i.val →
    writeReg x w s = .next t →
    (∀ j, j ≠ i → t.block.bank j = s.block.bank j) ∧
    { t.block with pid := s.block.pid, illAcc := s.block.illAcc } = s.block)

/-- `STATUS` in full: what each flag holds after any step, by the transaction accepted (set by its error event, cleared by a
1 written to its bit or by reset, otherwise kept); a write to `STATUS` does nothing else; `STATUS` reads the two flags
with bits 31:2 zero; and no command reads or writes a flag (10_state.md R25, 60_exceptions.md R257). -/
def Obligations.StatusFlagsInFull : Prop :=
  (∀ s t : State, step s = .next t →
    (t.block.illCmd = true ↔
      (match s.pending with
      | .reset :: _ => False
      | .write i w :: _ =>
        (i = 0x02#8 ∧ s.block.illCmd = true ∧ w.getLsbD 0 = false) ∨
          (i = 0x01#8 ∧ (s.block.illCmd = true ∨ ∃ e, decode w = .error e)) ∨
          (i ≠ 0x02#8 ∧ i ≠ 0x01#8 ∧ s.block.illCmd = true)
      | _ => s.block.illCmd = true)) ∧
    (t.block.illAcc = true ↔
      (match s.pending with
      | .reset :: _ => False
      | .write i w :: _ =>
        (i = 0x02#8 ∧ s.block.illAcc = true ∧ w.getLsbD 1 = false) ∨
          (i ≠ 0x02#8 ∧ (s.block.illAcc = true ∨ reservedIndex i = true ∨ readOnlyIndex i = true))
      | .read i :: _ => s.block.illAcc = true ∨ reservedIndex i = true
      | [] => s.block.illAcc = true))) ∧
  (∀ (s : State) (w : Word) (rest : List Input), s.pending = .write 0x02#8 w :: rest →
    ∃ illCmd illAcc, step s = .next { s with
      block := { s.block with illCmd := illCmd, illAcc := illAcc }
      history := s.history ++ [.write 0x02#8 w]
      pending := rest }) ∧
  (∀ (s : State) (rest : List Input), s.pending = .read 0x02#8 :: rest →
    ∃ w : Word, w.toNat = s.block.illCmd.toNat + 2 * s.block.illAcc.toNat ∧
      step s = .next { s with history := s.history ++ [.read 0x02#8 w], pending := rest }) ∧
  (∀ (c : Instr) (s t : State) (illCmd illAcc : Bool), exec c s = .next t →
    exec c { s with block := { s.block with illCmd := illCmd, illAcc := illAcc } } =
      .next { t with block := { t.block with illCmd := illCmd, illAcc := illAcc } })

/-- Only `PARK` and `UPDCUR` use the filter ports, each Q once and then D once, storing the answers; only `ICLARKE` and
`SYNTH` emit, once, the words of the three duty registers; no other command makes an event (20_memory.md R88, R89). -/
def Obligations.OnlyTheseCommandsReachTheCollaborators : Prop :=
  ∀ (c : Instr) (s t : State), exec c s = .next t →
    (c = .park ∨ c = .updcur → ∃ xq xd,
      s.filtQ.sample Config.filtQ xq = (t.filtQ, t.block.curQ) ∧ s.filtD.sample Config.filtD xd = (t.filtD, t.block.curD) ∧
      t.history = s.history ++ [.filtQ xq t.block.curQ, .filtD xd t.block.curD]) ∧
    (c = .iclarke ∨ c = .synth →
      t.filtQ = s.filtQ ∧ t.filtD = s.filtD ∧
      t.history = s.history ++ [.setDuty t.block.dutyU t.block.dutyV t.block.dutyW]) ∧
    (c ≠ .park → c ≠ .updcur → c ≠ .iclarke → c ≠ .synth →
      t.filtQ = s.filtQ ∧ t.filtD = s.filtD ∧ t.history = s.history)

/-- `ERR1`, `ERR2`, `INTEG` and `OUT` of a bank are 0 after reset and change only in the step that runs its `PIDC` or takes
the reset input; `ERR2` only under the Delta law, `INTEG` only under the Position law (10_state.md R47, R48, R49). -/
def Obligations.PidStateChangesOnlyByItsCommand : Prop :=
  (∀ i : Fin 4, (State.reset.block.bank i).err1 = 0#32 ∧ (State.reset.block.bank i).err2 = 0#32 ∧
    (State.reset.block.bank i).integ = 0#32 ∧ (State.reset.block.bank i).out = 0#32) ∧
  ∀ (i : Fin 4) (s t : State), step s = .next t → (∀ rest, s.pending ≠ .reset :: rest) →
    ((∀ rest, s.pending ≠ .write 0x01#8 (encode (.pidc i)) :: rest) →
      (t.block.bank i).err1 = (s.block.bank i).err1 ∧ (t.block.bank i).out = (s.block.bank i).out) ∧
    ((∀ rest, s.pending = .write 0x01#8 (encode (.pidc i)) :: rest → (s.block.bank i).law = .position) →
      (t.block.bank i).err2 = (s.block.bank i).err2) ∧
    ((∀ rest, s.pending = .write 0x01#8 (encode (.pidc i)) :: rest → (s.block.bank i).law = .delta) →
      (t.block.bank i).integ = (s.block.bank i).integ)

/-! ## The port -/

/-- Index by index, the map of 10_state.md R22 and R40: what a read of each index returns, bank by bank and offset by offset;
every register is found at its index, no two share one, and the indices without a register are exactly those R23 calls
reserved. What a write of each index stores is checked by `WritesStoreTheWord` through the same indices. -/
def Obligations.RegisterMapIsExact : Prop :=
  (∀ r : Reg, Reg.ofIndex r.index = some r) ∧
  (∀ (i : RegIndex) (r : Reg), Reg.ofIndex i = some r → r.index = i) ∧
  (∀ i : RegIndex, Reg.ofIndex i = none ↔ reservedIndex i = true) ∧
  (∀ (i : Fin 4) (f : BankReg), (Reg.bank i f).index.toNat = 0x40 + 0x10 * i.val + f.offset) ∧
  (∀ s : State,
    readWord 0x00#8 s = 0x43500401#32 ∧ readWord 0x01#8 s = 0x00000000#32 ∧
    (readWord 0x02#8 s).toNat = s.block.illCmd.toNat + 2 * s.block.illAcc.toNat ∧ readWord 0x04#8 s = s.block.theta ∧
    readWord 0x05#8 s = s.block.sin ∧ readWord 0x06#8 s = s.block.cos ∧ readWord 0x08#8 s = s.block.curU ∧
    readWord 0x09#8 s = s.block.curV ∧ readWord 0x0A#8 s = s.block.curW ∧ readWord 0x0B#8 s = s.block.curA ∧
    readWord 0x0C#8 s = s.block.curB ∧ readWord 0x0D#8 s = s.block.curQ ∧ readWord 0x0E#8 s = s.block.curD ∧
    readWord 0x10#8 s = s.block.volD ∧ readWord 0x11#8 s = s.block.volQ ∧ readWord 0x12#8 s = s.block.volA ∧
    readWord 0x13#8 s = s.block.volB ∧ readWord 0x14#8 s = s.block.dutyU ∧ readWord 0x15#8 s = s.block.dutyV ∧
    readWord 0x16#8 s = s.block.dutyW) ∧
  (∀ (i : Fin 4) (s : State),
    readWord (BitVec.ofNat 8 (0x40 + 0x10 * i.val + 0x0)) s =
      (match (s.block.bank i).law with | .position => 0x00000000#32 | .delta => 0x00000001#32) ∧
    readWord (BitVec.ofNat 8 (0x40 + 0x10 * i.val + 0x1)) s = (s.block.bank i).target ∧
    readWord (BitVec.ofNat 8 (0x40 + 0x10 * i.val + 0x2)) s = (s.block.bank i).kp ∧
    readWord (BitVec.ofNat 8 (0x40 + 0x10 * i.val + 0x3)) s = (s.block.bank i).ki ∧
    readWord (BitVec.ofNat 8 (0x40 + 0x10 * i.val + 0x4)) s = (s.block.bank i).kd ∧
    readWord (BitVec.ofNat 8 (0x40 + 0x10 * i.val + 0x5)) s = (s.block.bank i).intHi ∧
    readWord (BitVec.ofNat 8 (0x40 + 0x10 * i.val + 0x6)) s = (s.block.bank i).intLo ∧
    readWord (BitVec.ofNat 8 (0x40 + 0x10 * i.val + 0x7)) s = (s.block.bank i).outHi ∧
    readWord (BitVec.ofNat 8 (0x40 + 0x10 * i.val + 0x8)) s = (s.block.bank i).outLo ∧
    readWord (BitVec.ofNat 8 (0x40 + 0x10 * i.val + 0x9)) s = (s.block.bank i).meas ∧
    readWord (BitVec.ofNat 8 (0x40 + 0x10 * i.val + 0xA)) s = (s.block.bank i).err1 ∧
    readWord (BitVec.ofNat 8 (0x40 + 0x10 * i.val + 0xB)) s = (s.block.bank i).err2 ∧
    readWord (BitVec.ofNat 8 (0x40 + 0x10 * i.val + 0xC)) s = (s.block.bank i).integ ∧
    readWord (BitVec.ofNat 8 (0x40 + 0x10 * i.val + 0xD)) s = (s.block.bank i).out) ∧
  (∀ s : State, s.block.bank 0 = s.block.pid.bank0 ∧ s.block.bank 1 = s.block.pid.bank1 ∧
    s.block.bank 2 = s.block.pid.bank2 ∧ s.block.bank 3 = s.block.pid.bank3) ∧
  (∀ r : Reg, ∀ s : State, readWord r.index s = s.block.readReg r)

/-- A `RegRead` returns the register's word, or 0 at a reserved index, and changes nothing but `ILLACC` at a reserved index
(10_state.md R23, 20_memory.md R74, 60_exceptions.md R252). -/
def Obligations.ReadsHaveNoSideEffect : Prop :=
  ∀ (s : State) (i : RegIndex) (rest : List Input), s.pending = .read i :: rest →
    (∀ r : Reg, i = r.index →
      step s = .next { s with history := s.history ++ [.read i (s.block.readReg r)], pending := rest }) ∧
    (reservedIndex i = true →
      step s = .next { s with
        block := { s.block with illAcc := true }
        history := s.history ++ [.read i 0#32]
        pending := rest })

/-- `BLKID` reads 0x43500401 in every state, and `CMD` reads 0 (10_state.md R24, R26). -/
def Obligations.IdentityAndCommandRead : Prop :=
  ∀ s : State, readWord 0x00#8 s = 0x43500401#32 ∧ readWord 0x01#8 s = 0#32

/-- `ILLACC` in full: a read of a reserved index returns 0 and sets it; a write to a reserved index or to a read-only register
sets it and stores nothing; no other step sets it (60_exceptions.md R252). -/
def Obligations.IllaccInFull : Prop :=
  (∀ (s : State) (i : RegIndex) (rest : List Input), s.pending = .read i :: rest → reservedIndex i = true →
    step s = .next { s with
      block := { s.block with illAcc := true }
      history := s.history ++ [.read i 0#32]
      pending := rest }) ∧
  (∀ (s : State) (i : RegIndex) (w : Word) (rest : List Input), s.pending = .write i w :: rest →
    (reservedIndex i = true ∨ readOnlyIndex i = true) →
    step s = .next { s with
      block := { s.block with illAcc := true }
      history := s.history ++ [.write i w]
      pending := rest }) ∧
  (∀ s t : State, step s = .next t → s.block.illAcc = false → t.block.illAcc = true →
    (∃ i rest, s.pending = .read i :: rest ∧ reservedIndex i = true) ∨
    (∃ i w rest, s.pending = .write i w :: rest ∧ (reservedIndex i = true ∨ readOnlyIndex i = true)))

/-- A write to an RW register stores the word bit for bit, whatever it is, so that it reads back as written; every other
register reads as before, and no event is made but the write's own (10_state.md R23, R35, 41_pid.md R151). `PCTRL` is
the next statement's. -/
def Obligations.WritesStoreTheWord : Prop :=
  ∀ (s : State) (r : Reg) (w : Word) (rest : List Input), s.pending = .write r.index w :: rest →
    (hostOnlyReg r ∨ r ∈ [Reg.curA, .curB, .volA, .volB]) → (∀ j, r ≠ .bank j .pctrl) →
    ∃ b, step s = .next { s with block := b, history := s.history ++ [.write r.index w], pending := rest } ∧
      b.readReg r = w ∧ (∀ r', r' ≠ r → b.readReg r' = s.block.readReg r')

/-- `set_target(v)` on instance `i` is the write of index 0x41 + 0x10*i: it changes `TARGET` of that bank and no other
register, no flag, no filter and no duty, and the next `PIDC i` uses the new target (41_pid.md R151). -/
def Obligations.SetTargetStoresOnlyTheTarget : Prop :=
  ∀ (s : State) (i : Fin 4) (x : RegIndex) (v : Word) (rest : List Input),
    x.toNat = 0x41 + 0x10 * i.val → s.pending = .write x v :: rest →
    step s = .next { s with
      block := s.block.setBank i { s.block.bank i with target := v }
      history := s.history ++ [.write x v]
      pending := rest } ∧
    ∀ t u, step s = .next t → exec (.pidc i) t = .next u → (u.block.bank i).err1 = fsub v (s.block.bank i).meas

/-- A write to `PCTRL` keeps bit 0 as `LAW`, 0 Position and 1 Delta; bits 31:1 are ignored and read 0, and no flag is set
(10_state.md R41). -/
def Obligations.PctrlKeepsOnlyTheLaw : Prop :=
  ∀ (s : State) (i : Fin 4) (w : Word) (rest : List Input), s.pending = .write (Reg.bank i .pctrl).index w :: rest →
    step s = .next { s with
      block := s.block.setBank i { s.block.bank i with law := if w.toNat % 2 = 1 then .delta else .position }
      history := s.history ++ [.write (Reg.bank i .pctrl).index w]
      pending := rest } ∧
    ∀ t, step s = .next t → (t.block.readReg (.bank i .pctrl)).toNat = w.toNat % 2

/-- Bus accesses: a 4-byte read at offset `4*i` is `RegRead(i)`, a word's bytes are its bits 7:0 first, a 4-byte write of the
bytes of `w` in that order is `RegWrite(i, w)`, and any other access performs no transaction and changes nothing
(20_memory.md R72, R73). -/
def Obligations.BusAccessesBecomeTransactions : Prop :=
  (∀ i : RegIndex, busTransaction ⟨4 * i.toNat, 4, none⟩ = some (.read i)) ∧
  (∀ w : Word, wordBytes w =
    [BitVec.ofNat 8 w.toNat, BitVec.ofNat 8 (w.toNat / 0x100), BitVec.ofNat 8 (w.toNat / 0x10000),
      BitVec.ofNat 8 (w.toNat / 0x1000000)]) ∧
  (∀ (i : RegIndex) (w : Word),
    busTransaction ⟨4 * i.toNat, 4, some
      [BitVec.ofNat 8 w.toNat, BitVec.ofNat 8 (w.toNat / 0x100), BitVec.ofNat 8 (w.toNat / 0x10000),
        BitVec.ofNat 8 (w.toNat / 0x1000000)]⟩ = some (.write i w)) ∧
  (∀ (a : BusAccess) (s : State), (a.size ≠ 4 ∨ a.offset % 4 ≠ 0 ∨ 0x400 ≤ a.offset) →
    busTransaction a = none ∧ s.busAccess a = s)

/-! ## Reset -/

/-- After reset every register reads the value 10_state.md R58 gives it. -/
def Obligations.ResetGivesEveryRegisterItsValue : Prop :=
  State.reset.block.illCmd = false ∧ State.reset.block.illAcc = false ∧
  ∀ r : Reg, State.reset.block.readReg r =
    (match r with
    | .blkid => 0x43500401#32
    | .bank _ .intHi | .bank _ .intLo | .bank _ .outHi | .bank _ .outLo => 0x7FC00000#32
    | _ => 0x00000000#32)

/-- The reset input gives every register its reset value and touches neither the filters nor the history: it exchanges
nothing and emits nothing (70_reset_and_hazards.md R280, R282). That the other pending inputs stay is the model's
(log 6). -/
def Obligations.ResetInputResetsOnlyTheBlock : Prop :=
  ∀ (s : State) (rest : List Input), s.pending = .reset :: rest →
    ∃ b, step s = .next { s with block := b, pending := rest } ∧ b.illCmd = false ∧ b.illAcc = false ∧
      ∀ r : Reg, b.readReg r =
        (match r with
        | .blkid => 0x43500401#32
        | .bank _ .intHi | .bank _ .intLo | .bank _ .outHi | .bank _ .outLo => 0x7FC00000#32
        | _ => 0x00000000#32)

/-! ## The invariant -/

/-- The state after reset meets the invariant. -/
def Obligations.ResetStateMeetsTheInvariant : Prop := State.reset.Inv

/-- Every step keeps the invariant: `SIN`, `COS` a pair of the unit, `CUR_Q`, `CUR_D` the last answers, the duties the last
emitted, the filters' memory what was presented, the banks' results without a foreign NaN (10_state.md R23, R28, R31, R34,
R35, R57). -/
def Obligations.EveryStepKeepsTheInvariant : Prop := ∀ s t : State, s.Inv → step s = .next t → t.Inv

/-! ## Numbers -/

/-- `round32` of `num / den`: 0 gives the zero of sign `z`; any other number gives a word of its sign, never a NaN, an
infinity exactly from halfway between the largest finite value and 2^128 on; a finite result is a nearest finite word,
and on a tie the one whose integer significand (bit 0 of the word) is even (40_numerics.md R122). -/
def Obligations.RoundingIsNearestTiesToEven : Prop :=
  (∀ (den : Nat) (z : Bool), round32 0 den z = if z then 0x80000000#32 else 0#32) ∧
  ∀ (num : Int) (den : Nat) (z : Bool), num ≠ 0 → den ≠ 0 →
    isNaN (round32 num den z) = false ∧ signOf (round32 num den z) = decide (num < 0) ∧
    (isInf (round32 num den z) = true ↔ (2 : ℚ) ^ 128 - 2 ^ 103 ≤ |(num : ℚ) / (den : ℚ)|) ∧
    (isFinite (round32 num den z) = true → ∀ y : Word, isFinite y = true →
      |val (round32 num den z) - (num : ℚ) / (den : ℚ)| ≤ |val y - (num : ℚ) / (den : ℚ)| ∧
      (val y ≠ val (round32 num den z) →
        |val (round32 num den z) - (num : ℚ) / (den : ℚ)| = |val y - (num : ℚ) / (den : ℚ)| →
        (round32 num den z).getLsbD 0 = false))

/-- `fadd` and `fsub`, case by case: NaN operands, infinities, two zeros, and otherwise the exact sum rounded once with +0 for
an exact zero (40_numerics.md R125). -/
def Obligations.SumsFollowTheCases : Prop :=
  (∀ a b : Word, isNaN a = true ∨ isNaN b = true → fadd a b = 0x7FC00000#32 ∧ fsub a b = 0x7FC00000#32) ∧
  (∀ a b : Word, isNaN a = false → isNaN b = false →
    fsub a b = fadd a (fneg b) ∧
    (isInf a = true → isInf b = true → fadd a b = if signOf a = signOf b then a else 0x7FC00000#32) ∧
    (isInf a = true → isInf b = false → fadd a b = a) ∧ (isInf a = false → isInf b = true → fadd a b = b) ∧
    (isZero a = true → isZero b = true → fadd a b = if signOf a = signOf b then a else 0#32) ∧
    (isFinite a = true → isFinite b = true → (isZero a && isZero b) = false →
      ∃ (num : Int) (den : Nat), den ≠ 0 ∧ (num : ℚ) / (den : ℚ) = val a + val b ∧ fadd a b = round32 num den false))

/-- `fmul`, case by case: a NaN operand, infinity by zero, an infinity, and otherwise the exact product rounded once, with the
sign of the operands' signs for a zero (40_numerics.md R126). -/
def Obligations.ProductsFollowTheCases : Prop :=
  ∀ a b : Word,
    (isNaN a = true ∨ isNaN b = true → fmul a b = 0x7FC00000#32) ∧
    (isInf a = true → isZero b = true → fmul a b = 0x7FC00000#32) ∧
    (isZero a = true → isInf b = true → fmul a b = 0x7FC00000#32) ∧
    (isNaN a = false → isNaN b = false → isInf a = true ∨ isInf b = true → isZero a = false → isZero b = false →
      fmul a b = if signOf a = signOf b then 0x7F800000#32 else 0xFF800000#32) ∧
    (isFinite a = true → isFinite b = true →
      ∃ (num : Int) (den : Nat), den ≠ 0 ∧ (num : ℚ) / (den : ℚ) = val a * val b ∧
        fmul a b = round32 num den (signOf a ^^ signOf b))

/-- `fdiv`, case by case: a NaN operand, infinity by infinity and zero by zero, infinity by finite, finite by infinity,
non-zero by zero, and otherwise the exact quotient rounded once (40_numerics.md R127). -/
def Obligations.QuotientsFollowTheCases : Prop :=
  ∀ a b : Word,
    (isNaN a = true ∨ isNaN b = true → fdiv a b = 0x7FC00000#32) ∧
    (isInf a = true → isInf b = true → fdiv a b = 0x7FC00000#32) ∧
    (isZero a = true → isZero b = true → fdiv a b = 0x7FC00000#32) ∧
    (isInf a = true → isFinite b = true → fdiv a b = if signOf a = signOf b then 0x7F800000#32 else 0xFF800000#32) ∧
    (isFinite a = true → isInf b = true → fdiv a b = if signOf a = signOf b then 0#32 else 0x80000000#32) ∧
    (isFinite a = true → isZero a = false → isZero b = true →
      fdiv a b = if signOf a = signOf b then 0x7F800000#32 else 0xFF800000#32) ∧
    (isFinite a = true → isFinite b = true → isZero b = false →
      ∃ (num : Int) (den : Nat), den ≠ 0 ∧ (num : ℚ) / (den : ℚ) = val a / val b ∧
        fdiv a b = round32 num den (signOf a ^^ signOf b))

/-- The NaN rule: with a NaN operand, or in an invalid case, the result is the canonical NaN, and no other NaN ever results;
`fneg` only flips the sign bit (40_numerics.md R124). -/
def Obligations.NaNResultsAreCanonical : Prop :=
  (∀ (op : Word → Word → Word), op ∈ [fadd, fsub, fmul, fdiv] → ∀ a b : Word,
    (isNaN a = true ∨ isNaN b = true → op a b = 0x7FC00000#32) ∧ (isNaN (op a b) = true → op a b = 0x7FC00000#32)) ∧
  (∀ a b : Word,
    (isInf a = true → isInf b = true → signOf a ≠ signOf b → fadd a b = 0x7FC00000#32) ∧
    (isInf a = true → isInf b = true → signOf a = signOf b → fsub a b = 0x7FC00000#32) ∧
    (isInf a = true → isZero b = true → fmul a b = 0x7FC00000#32 ∧ fmul b a = 0x7FC00000#32) ∧
    (isInf a = true → isInf b = true → fdiv a b = 0x7FC00000#32) ∧
    (isZero a = true → isZero b = true → fdiv a b = 0x7FC00000#32)) ∧
  (∀ a : Word, fneg a = a ^^^ 0x80000000#32)

/-- `flt` is the order of the extended real values: of finite words by their values (so that +0 equals -0), with the infinities
beyond them, and false on a NaN; `fgt(a, b)` is `flt(b, a)` (40_numerics.md R129). -/
def Obligations.LessThanIsTheOrderOfValues : Prop :=
  (∀ a b : Word, isFinite a = true → isFinite b = true → (flt a b = true ↔ val a < val b)) ∧
  (∀ a : Word, isFinite a = true → flt a 0x7F800000#32 = true ∧ flt 0x7F800000#32 a = false ∧
    flt 0xFF800000#32 a = true ∧ flt a 0xFF800000#32 = false) ∧
  flt 0xFF800000#32 0x7F800000#32 = true ∧ flt 0x7F800000#32 0xFF800000#32 = false ∧
  flt 0x7F800000#32 0x7F800000#32 = false ∧ flt 0xFF800000#32 0xFF800000#32 = false ∧
  (∀ a b : Word, isNaN a = true ∨ isNaN b = true → flt a b = false) ∧
  (∀ a b : Word, fgt a b = flt b a)

/-- `fromQ30(n)` is the rounding of `n / 2^30`: exact on an integer of magnitude up to 2^24 times a power of two, and +0, 1.0
and -1.0 at 0, 2^30 and -2^30 (40_numerics.md R133). -/
def Obligations.FromQ30RoundsAndIsExactOnShortIntegers : Prop :=
  (∀ n : Int, |n| ≤ 2 ^ 30 → fromQ30 n = round32 n (2 ^ 30) false) ∧
  (∀ (m : Int) (k : Nat), |m| ≤ 2 ^ 24 → |m * 2 ^ k| ≤ 2 ^ 30 →
    val (fromQ30 (m * 2 ^ k)) = ((m * 2 ^ k : Int) : ℚ) / 2 ^ 30) ∧
  fromQ30 0 = 0#32 ∧ fromQ30 (2 ^ 30) = 0x3F800000#32 ∧ fromQ30 (-(2 ^ 30)) = 0xBF800000#32

/-! ## PID properties -/

/-- The clamp invariant in its exact form: with both bounds set and the lower not above the upper, `OUT` is not beyond its
bounds after a call, nor `INTEG` beyond its own under the Position law (41_pid.md R161). -/
def Obligations.PidClampBoundsHold : Prop :=
  ∀ (i : Fin 4) (s t : State) (b : Bank), s.block.bank i = b → exec (.pidc i) s = .next t →
    (isNaN b.outLo = false → isNaN b.outHi = false → fgt b.outLo b.outHi = false →
      fgt (t.block.bank i).out b.outHi = false ∧ flt (t.block.bank i).out b.outLo = false) ∧
    (b.law = .position → isNaN b.intLo = false → isNaN b.intHi = false → fgt b.intLo b.intHi = false →
      fgt (t.block.bank i).integ b.intHi = false ∧ flt (t.block.bank i).integ b.intLo = false)

/-- Under the Delta law with finite gains, the third of three calls with `TARGET` and `MEAS` finite and of one value (zeros of
different sign among them, where the error is -0 or +0, R159 g) leaves `OUT` as it was, but that a -0 may become +0 (41_pid.md R162). The premise on the output bounds rules out a lower bound
above the upper, where the clamp of R132 would answer the two bounds in turn. -/
def Obligations.ThirdZeroErrorDeltaCallKeepsOut : Prop :=
  ∀ (i : Fin 4) (s t₁ t₂ t₃ : State) (b : Bank), s.block.bank i = b →
    b.law = .delta → isFinite b.target = true → isFinite b.meas = true → val b.meas = val b.target →
    isFinite b.kp = true → isFinite b.ki = true → isFinite b.kd = true →
    (isNaN b.outLo = true ∨ isNaN b.outHi = true ∨ fgt b.outLo b.outHi = false) →
    exec (.pidc i) s = .next t₁ → exec (.pidc i) t₁ = .next t₂ → exec (.pidc i) t₂ = .next t₃ →
    (t₃.block.bank i).out = (t₂.block.bank i).out ∨
      ((t₂.block.bank i).out = 0x80000000#32 ∧ (t₃.block.bank i).out = 0#32)

/-- QDS's scenario: Position law, KP 1, KI and KD 0, target 10, measurement 7, no output clamp: the output is 3 whenever the
integral after the call and the change of the error are finite, whatever earlier calls left (41_pid.md R163). -/
def Obligations.ScenarioOutputsThree : Prop :=
  ∀ (i : Fin 4) (s t : State) (b : Bank), s.block.bank i = b →
    b.law = .position → b.kp = 0x3F800000#32 → b.ki = 0#32 → b.kd = 0#32 →
    b.target = 0x41200000#32 → b.meas = 0x40E00000#32 → (isNaN b.outLo = true ∨ isNaN b.outHi = true) →
    exec (.pidc i) s = .next t → isFinite (t.block.bank i).integ = true →
    isFinite (fsub 0x40400000#32 b.err1) = true →
    (t.block.bank i).out = 0x40400000#32

/-- A NaN in `TARGET` or `MEAS` reaches `ERR1`, `OUT` and, under the Position law, `INTEG`; a NaN `INTEG` under the Position
law and a NaN `OUT` under the Delta law stay and make `OUT` NaN, whatever the clamps (41_pid.md R159). -/
def Obligations.NaNStaysInABank : Prop :=
  ∀ (i : Fin 4) (s t : State) (b : Bank), s.block.bank i = b → exec (.pidc i) s = .next t →
    (isNaN b.target = true ∨ isNaN b.meas = true →
      (t.block.bank i).err1 = 0x7FC00000#32 ∧ (t.block.bank i).out = 0x7FC00000#32 ∧
      (b.law = .position → (t.block.bank i).integ = 0x7FC00000#32)) ∧
    (b.law = .position → isNaN b.integ = true →
      (t.block.bank i).integ = 0x7FC00000#32 ∧ (t.block.bank i).out = 0x7FC00000#32) ∧
    (b.law = .delta → isNaN b.out = true → (t.block.bank i).out = 0x7FC00000#32)

/-! ## Sine and cosine, duties -/

/-- `SINCOS_REF` meets clauses (b), (c) and (e) of the contract, and never returns -0 on a finite angle (44_sincos.md R212,
R219). Clause (d), the accuracy, is not claimed (log 8). -/
def Obligations.SincosRefMeetsTheContractsExactClauses : Prop :=
  SincosNonFinite sincosRef ∧ SincosBounded sincosRef ∧ SincosZero sincosRef ∧
  ∀ theta, isFinite theta = true → (sincosRef theta).1 ≠ 0x80000000#32 ∧ (sincosRef theta).2 ≠ 0x80000000#32

/-- The four cardinal angles are exact (44_sincos.md R220). -/
def Obligations.CardinalAnglesAreExact : Prop :=
  (∀ theta : Word, isFinite theta = true → bamOf theta = 0 → sincosRef theta = (0#32, 0x3F800000#32)) ∧
  (∀ theta : Word, isFinite theta = true → bamOf theta = 0x40000000 → sincosRef theta = (0x3F800000#32, 0#32)) ∧
  (∀ theta : Word, isFinite theta = true → bamOf theta = 0x80000000 → sincosRef theta = (0#32, 0xBF800000#32)) ∧
  (∀ theta : Word, isFinite theta = true → bamOf theta = 0xC0000000 → sincosRef theta = (0xBF800000#32, 0#32)) ∧
  bamOf 0x3FC90FDB#32 = 0x40000000 ∧ bamOf 0x40490FDB#32 = 0x80000000 ∧ bamOf 0x4096CBE4#32 = 0xC0000000 ∧
  bamOf 0x40C90FDB#32 = 0

/-- The reduction to a binary angle: `t` does not overflow; `k` is an integer nearest `val(t) * 2^32`, the even one on a tie,
and the angle is `k` modulo 2^32; `k` is 0 exactly when `val(t)` is at most 2^-33 in size; where `val(t)` is at least 2^23
in size the angle is 0 (44_sincos.md R215). -/
def Obligations.AngleReductionIsNearestInteger : Prop :=
  ∀ theta t : Word, isFinite theta = true → t = fmul theta 0x3E22F983#32 →
    isFinite t = true ∧
    (∃ k : Int, |(k : ℚ) - val t * 2 ^ 32| ≤ 1 / 2 ∧ (|(k : ℚ) - val t * 2 ^ 32| = 1 / 2 → k % 2 = 0) ∧
      (bamOf theta : Int) = k % 2 ^ 32 ∧ (k = 0 ↔ |val t| ≤ 1 / 2 ^ 33)) ∧
    (2 ^ 23 ≤ |val t| → bamOf theta = 0)

/-- With `VOL_D` and `VOL_Q` +0 and any finite angle, `SYNTH` answers three duties of 0.5 (43_synthesis.md R195). -/
def Obligations.ZeroVoltageGivesHalfDuties : Prop :=
  ∀ s : State, s.block.volD = 0#32 → s.block.volQ = 0#32 → isFinite s.block.theta = true →
    ∃ t, exec .synth s = .next t ∧
      t.block.dutyU = 0x3F000000#32 ∧ t.block.dutyV = 0x3F000000#32 ∧ t.block.dutyW = 0x3F000000#32 ∧
      t.history = s.history ++ [.setDuty 0x3F000000#32 0x3F000000#32 0x3F000000#32]

/-! ## SINCOS and the filters as parameters -/

/-- The machine is the parametrised one on this hardware's platform, where `SINCOS` is `SINCOS_REF` and the filters are the
injected ones (00_scope.md R7, R15, 44_sincos.md R216). -/
def Obligations.ThisHardwareTakesSincosRef : Prop :=
  (∀ (c : Instr) (s : State), exec c s = execOn ⟨sincosRef, Config.filtQ, Config.filtD⟩ c s) ∧
  ∀ s : State, step s = stepOn ⟨sincosRef, Config.filtQ, Config.filtD⟩ s

/-- On any platform the five angle commands leave in `SIN`, `COS` the pair its `SINCOS` gives the word in `THETA`, and no
command depends on `SINCOS` in any other way: with another function that agrees at that word an angle command does the
same, and any other command does the same with any function (44_sincos.md R210). -/
def Obligations.SincosEntersOnlyThroughThePair : Prop :=
  ∀ (p : Platform) (c : Instr) (s : State) (f : Word → Word × Word),
    (c ∈ angleCommands → ∃ t, execOn p c s = .next t ∧ (t.block.sin, t.block.cos) = p.sincos s.block.theta) ∧
    (f s.block.theta = p.sincos s.block.theta ∨ c ∉ angleCommands → execOn { p with sincos := f } c s = execOn p c s) ∧
    (c ∉ angleCommands → ∃ t, execOn p c s = .next t ∧ t.block.sin = s.block.sin ∧ t.block.cos = s.block.cos)

/-- With any unit that meets clause (b) of the contract, a NaN or infinite `THETA` gives the canonical NaN in `SIN` and `COS`;
`PARK` and `UPDCUR` present it to both filters, `IPARK` and `SYNTH` leave it in `VOL_A`, `VOL_B`, and `SYNTH` writes and
emits it as all three duties. `CUR_Q` and `CUR_D` are whatever the filters answer (R173) and are not claimed (44_sincos.md R212, R213, 42_transform.md R173, 43_synthesis.md R191). -/
def Obligations.NonFiniteAngleGivesNaNWithAnyUnit : Prop :=
  ∀ (p : Platform) (s : State), SincosNonFinite p.sincos → isFinite s.block.theta = false →
    (∀ c ∈ angleCommands, ∃ t, execOn p c s = .next t ∧ t.block.sin = 0x7FC00000#32 ∧ t.block.cos = 0x7FC00000#32) ∧
    (∀ c ∈ [Instr.park, .updcur], ∃ t yq yd, execOn p c s = .next t ∧
      t.history = s.history ++ [.filtQ 0x7FC00000#32 yq, .filtD 0x7FC00000#32 yd]) ∧
    (∀ c ∈ [Instr.ipark, .synth], ∃ t, execOn p c s = .next t ∧
      t.block.volA = 0x7FC00000#32 ∧ t.block.volB = 0x7FC00000#32) ∧
    ∃ t, execOn p .synth s = .next t ∧
      t.block.dutyU = 0x7FC00000#32 ∧ t.block.dutyV = 0x7FC00000#32 ∧ t.block.dutyW = 0x7FC00000#32 ∧
      t.history = s.history ++ [.setDuty 0x7FC00000#32 0x7FC00000#32 0x7FC00000#32]

/-- With any unit that meets clause (c) of the contract, zero voltage gives three duties of 0.5 at any finite angle: the
claim of `ZeroVoltageGivesHalfDuties` without `SINCOS_REF` (43_synthesis.md R195, 44_sincos.md R212). -/
def Obligations.ZeroVoltageGivesHalfDutiesWithAnyUnit : Prop :=
  ∀ (p : Platform) (s : State), SincosBounded p.sincos →
    s.block.volD = 0#32 → s.block.volQ = 0#32 → isFinite s.block.theta = true →
    ∃ t, execOn p .synth s = .next t ∧
      t.block.dutyU = 0x3F000000#32 ∧ t.block.dutyV = 0x3F000000#32 ∧ t.block.dutyW = 0x3F000000#32 ∧
      t.history = s.history ++ [.setDuty 0x3F000000#32 0x3F000000#32 0x3F000000#32]

/-! ## The clamp -/

/-- `clamp(x, lo, hi)`: the upper test first, then the lower, else `x`, bit for bit. So a NaN passes, a value inside its
bounds is kept as its word, zeros of either sign do not exceed one another, and with the lower bound above the upper
every number gives the upper bound or, where it is not above that, the lower (40_numerics.md R132). -/
def Obligations.ClampTestsTheUpperBoundFirst : Prop :=
  ∀ x lo hi : Word,
    clamp x lo hi = (if fgt x hi = true then hi else if flt x lo = true then lo else x) ∧
    (isNaN x = true → clamp x lo hi = x) ∧
    (isFinite x = true → isFinite lo = true → isFinite hi = true → val lo ≤ val x → val x ≤ val hi → clamp x lo hi = x) ∧
    (isZero x = true → (isZero hi = true → fgt x hi = false) ∧ (isZero lo = true → flt x lo = false)) ∧
    (fgt lo hi = true → isNaN x = false → clamp x lo hi = if fgt x hi = true then hi else lo)
end

