-- ==== Sys2Proof/Laws/Decode.lean ====
section
/-! SUPPORT. The fields of a command word as numbers, and the words of the commands as numbers. -/

namespace Sys2Proof

theorem opcField_toNat (w : Word) : (opcField w).toNat = w.toNat % 0x100 := by
  simp [opcField]

theorem zeroField0_toNat (w : Word) : (zeroField0 w).toNat = w.toNat / 0x100 := by
  have h := w.isLt
  simp only [zeroField0, BitVec.extractLsb'_toNat, Nat.shiftRight_eq_div_pow]
  omega

theorem zeroFieldI_toNat (w : Word) : (zeroFieldI w).toNat = w.toNat / 0x400 := by
  have h := w.isLt
  simp only [zeroFieldI, BitVec.extractLsb'_toNat, Nat.shiftRight_eq_div_pow]
  omega

theorem idxField_val (w : Word) : (idxField w).val = w.toNat / 0x100 % 4 := by
  simp [idxField, Nat.shiftRight_eq_div_pow]

/-- The word of a `CMD0` command is its opcode (30_encoding.md R101). -/
theorem cmd0Word_toNat (opc : BitVec 8) : (cmd0Word opc).toNat = opc.toNat := by
  show (0#24 ++ opc : BitVec (24 + 8)).toNat = opc.toNat
  rw [BitVec.toNat_append]
  simp

/-- "The four `PIDC` words": 0x10 + 0x100*idx (30_encoding.md R104). -/
theorem encode_pidc_toNat (idx : Fin 4) : (encode (.pidc idx)).toNat = 0x10 + 0x100 * idx.val := by
  revert idx; decide

end Sys2Proof
end

