-- ==== Sys2Proof/Laws/Filters.lean ====
section
/-! SUPPORT. Why the injected filters may be functions of the words presented so far: every filter of 20_memory.md R88 (a
state type, an initial state, a total step) answers as such a function does, so a claim true of every `Config.filtQ` is
true of every filter (log 1). -/

namespace Sys2Proof.Machine

/-- The state of a filter after a list of words. -/
def filterRun {σ : Type} (next : σ → Word → σ × Word) (init : σ) (seen : List Word) : σ :=
  seen.foldl (fun s x => (next s x).1) init

/-- Its answer to the last word of a list, as a function of the list. -/
def filterAnswer {σ : Type} (next : σ → Word → σ × Word) (init : σ) (seen : List Word) : Word :=
  match seen.getLast? with
  | some x => (next (filterRun next init seen.dropLast) x).2
  | none => 0

/-- A filter with any state, run beside `FilterState.external` with its answer function, gives the same answers. -/
theorem external_answers_as_any_filter {σ : Type} (next : σ → Word → σ × Word) (init : σ) (seen : List Word) (x : Word) :
    (FilterState.sample (filterAnswer next init) (.external seen) x).2 = (next (filterRun next init seen) x).2 ∧
      (FilterState.sample (filterAnswer next init) (.external seen) x).1 = .external (seen ++ [x]) ∧
      filterRun next init (seen ++ [x]) = (next (filterRun next init seen) x).1 := by
  refine ⟨?_, rfl, ?_⟩
  · simp [FilterState.sample, filterAnswer]
  · simp [filterRun]

end Sys2Proof.Machine
end

