-- ==== Sys2Proof/Laws/Float.lean ====
section
/-! SUPPORT. The fields of a word, the classes and the rounding to nearest, once each: later proofs about the primitives
cite these. -/

namespace Sys2Proof.Machine

/-! ## Fields of a word -/

theorem expOf_lt (b : Word) : expOf b < 256 := (b.extractLsb' 23 8).isLt

theorem fracOf_lt (b : Word) : fracOf b < 2 ^ 23 := (b.extractLsb' 0 23).isLt

theorem expOf_toNat (b : Word) : expOf b = b.toNat / 2 ^ 23 % 2 ^ 8 := by
  simp [expOf, BitVec.extractLsb'_toNat, Nat.shiftRight_eq_div_pow]

theorem fracOf_toNat (b : Word) : fracOf b = b.toNat % 2 ^ 23 := by
  simp [fracOf, BitVec.extractLsb'_toNat]

theorem signOf_toNat (b : Word) : signOf b = decide (2 ^ 31 ≤ b.toNat) := by
  have h := b.isLt
  simp only [signOf, BitVec.getLsbD, Nat.testBit_eq_decide_div_mod_eq]
  congr 1
  apply propext
  omega

theorem packWord_toNat {s : Bool} {m : Nat} (h : m < 2 ^ 31) :
    (packWord s m).toNat = (if s then 2 ^ 31 else 0) + m := by
  simp only [packWord, BitVec.toNat_append, BitVec.toNat_ofBool, BitVec.toNat_ofNat, Nat.mod_eq_of_lt h]
  rw [← Nat.shiftLeft_add_eq_or_of_lt h]
  cases s <;> simp [Nat.shiftLeft_eq]

@[simp] theorem signOf_packWord {s : Bool} {m : Nat} (h : m < 2 ^ 31) : signOf (packWord s m) = s := by
  rw [signOf_toNat, packWord_toNat h]
  cases s <;> simp; omega

@[simp] theorem expOf_packWord {s : Bool} {m : Nat} (h : m < 2 ^ 31) : expOf (packWord s m) = m / 2 ^ 23 := by
  rw [expOf_toNat, packWord_toNat h]
  cases s <;> simp <;> omega

@[simp] theorem fracOf_packWord {s : Bool} {m : Nat} (h : m < 2 ^ 31) : fracOf (packWord s m) = m % 2 ^ 23 := by
  rw [fracOf_toNat, packWord_toNat h]
  cases s <;> simp; omega

/-- A word is its sign and its low 31 bits. -/
theorem packWord_fields (b : Word) : packWord (signOf b) (2 ^ 23 * expOf b + fracOf b) = b := by
  have hl := b.isLt
  apply BitVec.eq_of_toNat_eq
  rw [packWord_toNat (by rw [expOf_toNat, fracOf_toNat]; omega), signOf_toNat, expOf_toNat, fracOf_toNat]
  by_cases h : 2 ^ 31 ≤ b.toNat <;> simp only [h, decide_true, decide_false, if_true, if_false, Bool.false_eq_true] <;> omega

/-! ## Classes -/

theorem isNaN_eq (b : Word) : isNaN b = true ↔ expOf b = 255 ∧ fracOf b ≠ 0 := by simp [isNaN]

theorem isInf_eq (b : Word) : isInf b = true ↔ expOf b = 255 ∧ fracOf b = 0 := by simp [isInf]

theorem isZero_eq (b : Word) : isZero b = true ↔ expOf b = 0 ∧ fracOf b = 0 := by simp [isZero]

theorem isFinite_eq (b : Word) : isFinite b = true ↔ expOf b ≠ 255 := by simp [isFinite]

/-- A word is finite exactly when it is neither a NaN nor an infinity. -/
theorem isFinite_iff (b : Word) : isFinite b = true ↔ isNaN b = false ∧ isInf b = false := by
  by_cases h : expOf b = 255 <;> by_cases g : fracOf b = 0 <;> simp [isFinite, isNaN, isInf, h, g]

@[simp] theorem isNaN_canonicalNaN : isNaN canonicalNaN = true := by decide

/-! ## The sign flip -/

theorem fneg_toNat (a : Word) : (fneg a).toNat = if 2 ^ 31 ≤ a.toNat then a.toNat - 2 ^ 31 else a.toNat + 2 ^ 31 := by
  have ha := a.isLt
  have e : a = packWord (signOf a) (a.toNat % 2 ^ 31) := by
    apply BitVec.eq_of_toNat_eq
    rw [packWord_toNat (by omega), signOf_toNat]
    by_cases h : 2 ^ 31 ≤ a.toNat <;>
      simp only [h, decide_true, decide_false, if_true, if_false, Bool.false_eq_true] <;> omega
  have k : fneg a = packWord (!signOf a) (a.toNat % 2 ^ 31) := by
    have z : (0x80000000#32 : Word) = packWord true 0 := by decide
    rw [fneg, z]
    conv_lhs => rw [e]
    unfold packWord
    rw [BitVec.xor_append]
    cases signOf a <;> simp
  rw [k, packWord_toNat (by omega), signOf_toNat]
  by_cases h : 2 ^ 31 ≤ a.toNat <;>
    simp only [h, decide_true, decide_false, Bool.not_true, Bool.not_false, if_true, if_false, Bool.false_eq_true] <;> omega

@[simp] theorem expOf_fneg (a : Word) : expOf (fneg a) = expOf a := by
  rw [expOf_toNat, expOf_toNat, fneg_toNat]
  split <;> omega

@[simp] theorem fracOf_fneg (a : Word) : fracOf (fneg a) = fracOf a := by
  rw [fracOf_toNat, fracOf_toNat, fneg_toNat]
  split <;> omega

@[simp] theorem signOf_fneg (a : Word) : signOf (fneg a) = !signOf a := by
  have ha := a.isLt
  rw [signOf_toNat, signOf_toNat, fneg_toNat]
  by_cases h : 2 ^ 31 ≤ a.toNat
  · rw [if_pos h, decide_eq_true h, decide_eq_false (by omega)]; rfl
  · rw [if_neg h, decide_eq_false h, decide_eq_true (by omega)]; rfl

@[simp] theorem magOf_fneg (a : Word) : magOf (fneg a) = magOf a := by simp [magOf]

@[simp] theorem scaled_fneg (a : Word) : scaled (fneg a) = -scaled a := by
  cases h : signOf a <;> simp [scaled, h]

/-! ## Rounding -/

/-- The nearest natural number is one of the two neighbours, and the lower one is not taken past the middle. -/
theorem rne_bounds (n d : Nat) : n / d ≤ rne n d ∧ rne n d ≤ n / d + 1 := by
  unfold rne
  split
  · omega
  · split <;> omega

/-- What `rne` answers is within half of the exact quotient. -/
theorem rne_near {n d : Nat} (hd : 0 < d) : 2 * n ≤ (2 * rne n d + 1) * d ∧ 2 * (rne n d * d) ≤ 2 * n + d := by
  have h := Nat.div_add_mod n d
  have hm := Nat.mod_lt n hd
  generalize hq : n / d = q at h
  generalize hr : n % d = r at h hm
  have e : rne n d = if 2 * r < d then q else if d < 2 * r then q + 1 else q + q % 2 := by
    unfold rne; rw [hq, hr]
  rw [e]
  have comm : q * d = d * q := Nat.mul_comm q d
  split
  · constructor <;> nlinarith
  · split
    · constructor <;> nlinarith
    · rcases Nat.mod_two_eq_zero_or_one q with h2 | h2 <;> rw [h2] <;> constructor <;> nlinarith

theorem roundMag_le (n d : Nat) : roundMag n d ≤ 0x7F800000 := Nat.min_le_right _ _

theorem roundMag_lt (n d : Nat) : roundMag n d < 2 ^ 31 := lt_of_le_of_lt (roundMag_le n d) (by norm_num)

@[simp] theorem zeroOf_false : zeroOf false = 0#32 := by decide

@[simp] theorem zeroOf_true : zeroOf true = 0x80000000#32 := by decide

end Sys2Proof.Machine
end

