-- ==== Sys2Proof/Laws/State.lean ====
section
/-! SUPPORT. One lemma per field per update, true by `rfl`, so that no proof unfolds a record update. The first part is
about the updates of `Block`, the second about those of `State`. -/

namespace Sys2Proof.Machine

/-! ## Updates of the block -/

section
variable (b : Block) (p : Word × Word)
@[simp] theorem Block.setAngle_illCmd : (b.setAngle p).illCmd = b.illCmd := rfl
@[simp] theorem Block.setAngle_illAcc : (b.setAngle p).illAcc = b.illAcc := rfl
@[simp] theorem Block.setAngle_theta : (b.setAngle p).theta = b.theta := rfl
@[simp] theorem Block.setAngle_sin : (b.setAngle p).sin = p.1 := rfl
@[simp] theorem Block.setAngle_cos : (b.setAngle p).cos = p.2 := rfl
@[simp] theorem Block.setAngle_curU : (b.setAngle p).curU = b.curU := rfl
@[simp] theorem Block.setAngle_curV : (b.setAngle p).curV = b.curV := rfl
@[simp] theorem Block.setAngle_curW : (b.setAngle p).curW = b.curW := rfl
@[simp] theorem Block.setAngle_curA : (b.setAngle p).curA = b.curA := rfl
@[simp] theorem Block.setAngle_curB : (b.setAngle p).curB = b.curB := rfl
@[simp] theorem Block.setAngle_curQ : (b.setAngle p).curQ = b.curQ := rfl
@[simp] theorem Block.setAngle_curD : (b.setAngle p).curD = b.curD := rfl
@[simp] theorem Block.setAngle_volD : (b.setAngle p).volD = b.volD := rfl
@[simp] theorem Block.setAngle_volQ : (b.setAngle p).volQ = b.volQ := rfl
@[simp] theorem Block.setAngle_volA : (b.setAngle p).volA = b.volA := rfl
@[simp] theorem Block.setAngle_volB : (b.setAngle p).volB = b.volB := rfl
@[simp] theorem Block.setAngle_dutyU : (b.setAngle p).dutyU = b.dutyU := rfl
@[simp] theorem Block.setAngle_dutyV : (b.setAngle p).dutyV = b.dutyV := rfl
@[simp] theorem Block.setAngle_dutyW : (b.setAngle p).dutyW = b.dutyW := rfl
@[simp] theorem Block.setAngle_pid : (b.setAngle p).pid = b.pid := rfl
@[simp] theorem Block.setAngle_bank (j : Fin 4) : (b.setAngle p).bank j = b.bank j := rfl
end

section
variable (b : Block) (ia ib : Word)
@[simp] theorem Block.setStationary_illCmd : (b.setStationary ia ib).illCmd = b.illCmd := rfl
@[simp] theorem Block.setStationary_illAcc : (b.setStationary ia ib).illAcc = b.illAcc := rfl
@[simp] theorem Block.setStationary_theta : (b.setStationary ia ib).theta = b.theta := rfl
@[simp] theorem Block.setStationary_sin : (b.setStationary ia ib).sin = b.sin := rfl
@[simp] theorem Block.setStationary_cos : (b.setStationary ia ib).cos = b.cos := rfl
@[simp] theorem Block.setStationary_curU : (b.setStationary ia ib).curU = b.curU := rfl
@[simp] theorem Block.setStationary_curV : (b.setStationary ia ib).curV = b.curV := rfl
@[simp] theorem Block.setStationary_curW : (b.setStationary ia ib).curW = b.curW := rfl
@[simp] theorem Block.setStationary_curA : (b.setStationary ia ib).curA = ia := rfl
@[simp] theorem Block.setStationary_curB : (b.setStationary ia ib).curB = ib := rfl
@[simp] theorem Block.setStationary_curQ : (b.setStationary ia ib).curQ = b.curQ := rfl
@[simp] theorem Block.setStationary_curD : (b.setStationary ia ib).curD = b.curD := rfl
@[simp] theorem Block.setStationary_volD : (b.setStationary ia ib).volD = b.volD := rfl
@[simp] theorem Block.setStationary_volQ : (b.setStationary ia ib).volQ = b.volQ := rfl
@[simp] theorem Block.setStationary_volA : (b.setStationary ia ib).volA = b.volA := rfl
@[simp] theorem Block.setStationary_volB : (b.setStationary ia ib).volB = b.volB := rfl
@[simp] theorem Block.setStationary_dutyU : (b.setStationary ia ib).dutyU = b.dutyU := rfl
@[simp] theorem Block.setStationary_dutyV : (b.setStationary ia ib).dutyV = b.dutyV := rfl
@[simp] theorem Block.setStationary_dutyW : (b.setStationary ia ib).dutyW = b.dutyW := rfl
@[simp] theorem Block.setStationary_pid : (b.setStationary ia ib).pid = b.pid := rfl
@[simp] theorem Block.setStationary_bank (j : Fin 4) : (b.setStationary ia ib).bank j = b.bank j := rfl
end

section
variable (b : Block) (yq yd : Word)
@[simp] theorem Block.setRotating_illCmd : (b.setRotating yq yd).illCmd = b.illCmd := rfl
@[simp] theorem Block.setRotating_illAcc : (b.setRotating yq yd).illAcc = b.illAcc := rfl
@[simp] theorem Block.setRotating_theta : (b.setRotating yq yd).theta = b.theta := rfl
@[simp] theorem Block.setRotating_sin : (b.setRotating yq yd).sin = b.sin := rfl
@[simp] theorem Block.setRotating_cos : (b.setRotating yq yd).cos = b.cos := rfl
@[simp] theorem Block.setRotating_curU : (b.setRotating yq yd).curU = b.curU := rfl
@[simp] theorem Block.setRotating_curV : (b.setRotating yq yd).curV = b.curV := rfl
@[simp] theorem Block.setRotating_curW : (b.setRotating yq yd).curW = b.curW := rfl
@[simp] theorem Block.setRotating_curA : (b.setRotating yq yd).curA = b.curA := rfl
@[simp] theorem Block.setRotating_curB : (b.setRotating yq yd).curB = b.curB := rfl
@[simp] theorem Block.setRotating_curQ : (b.setRotating yq yd).curQ = yq := rfl
@[simp] theorem Block.setRotating_curD : (b.setRotating yq yd).curD = yd := rfl
@[simp] theorem Block.setRotating_volD : (b.setRotating yq yd).volD = b.volD := rfl
@[simp] theorem Block.setRotating_volQ : (b.setRotating yq yd).volQ = b.volQ := rfl
@[simp] theorem Block.setRotating_volA : (b.setRotating yq yd).volA = b.volA := rfl
@[simp] theorem Block.setRotating_volB : (b.setRotating yq yd).volB = b.volB := rfl
@[simp] theorem Block.setRotating_dutyU : (b.setRotating yq yd).dutyU = b.dutyU := rfl
@[simp] theorem Block.setRotating_dutyV : (b.setRotating yq yd).dutyV = b.dutyV := rfl
@[simp] theorem Block.setRotating_dutyW : (b.setRotating yq yd).dutyW = b.dutyW := rfl
@[simp] theorem Block.setRotating_pid : (b.setRotating yq yd).pid = b.pid := rfl
@[simp] theorem Block.setRotating_bank (j : Fin 4) : (b.setRotating yq yd).bank j = b.bank j := rfl
end

section
variable (b : Block) (ua ub : Word)
@[simp] theorem Block.setVoltage_illCmd : (b.setVoltage ua ub).illCmd = b.illCmd := rfl
@[simp] theorem Block.setVoltage_illAcc : (b.setVoltage ua ub).illAcc = b.illAcc := rfl
@[simp] theorem Block.setVoltage_theta : (b.setVoltage ua ub).theta = b.theta := rfl
@[simp] theorem Block.setVoltage_sin : (b.setVoltage ua ub).sin = b.sin := rfl
@[simp] theorem Block.setVoltage_cos : (b.setVoltage ua ub).cos = b.cos := rfl
@[simp] theorem Block.setVoltage_curU : (b.setVoltage ua ub).curU = b.curU := rfl
@[simp] theorem Block.setVoltage_curV : (b.setVoltage ua ub).curV = b.curV := rfl
@[simp] theorem Block.setVoltage_curW : (b.setVoltage ua ub).curW = b.curW := rfl
@[simp] theorem Block.setVoltage_curA : (b.setVoltage ua ub).curA = b.curA := rfl
@[simp] theorem Block.setVoltage_curB : (b.setVoltage ua ub).curB = b.curB := rfl
@[simp] theorem Block.setVoltage_curQ : (b.setVoltage ua ub).curQ = b.curQ := rfl
@[simp] theorem Block.setVoltage_curD : (b.setVoltage ua ub).curD = b.curD := rfl
@[simp] theorem Block.setVoltage_volD : (b.setVoltage ua ub).volD = b.volD := rfl
@[simp] theorem Block.setVoltage_volQ : (b.setVoltage ua ub).volQ = b.volQ := rfl
@[simp] theorem Block.setVoltage_volA : (b.setVoltage ua ub).volA = ua := rfl
@[simp] theorem Block.setVoltage_volB : (b.setVoltage ua ub).volB = ub := rfl
@[simp] theorem Block.setVoltage_dutyU : (b.setVoltage ua ub).dutyU = b.dutyU := rfl
@[simp] theorem Block.setVoltage_dutyV : (b.setVoltage ua ub).dutyV = b.dutyV := rfl
@[simp] theorem Block.setVoltage_dutyW : (b.setVoltage ua ub).dutyW = b.dutyW := rfl
@[simp] theorem Block.setVoltage_pid : (b.setVoltage ua ub).pid = b.pid := rfl
@[simp] theorem Block.setVoltage_bank (j : Fin 4) : (b.setVoltage ua ub).bank j = b.bank j := rfl
end

section
variable (b : Block) (u v w : Word)
@[simp] theorem Block.setDuties_illCmd : (b.setDuties u v w).illCmd = b.illCmd := rfl
@[simp] theorem Block.setDuties_illAcc : (b.setDuties u v w).illAcc = b.illAcc := rfl
@[simp] theorem Block.setDuties_theta : (b.setDuties u v w).theta = b.theta := rfl
@[simp] theorem Block.setDuties_sin : (b.setDuties u v w).sin = b.sin := rfl
@[simp] theorem Block.setDuties_cos : (b.setDuties u v w).cos = b.cos := rfl
@[simp] theorem Block.setDuties_curU : (b.setDuties u v w).curU = b.curU := rfl
@[simp] theorem Block.setDuties_curV : (b.setDuties u v w).curV = b.curV := rfl
@[simp] theorem Block.setDuties_curW : (b.setDuties u v w).curW = b.curW := rfl
@[simp] theorem Block.setDuties_curA : (b.setDuties u v w).curA = b.curA := rfl
@[simp] theorem Block.setDuties_curB : (b.setDuties u v w).curB = b.curB := rfl
@[simp] theorem Block.setDuties_curQ : (b.setDuties u v w).curQ = b.curQ := rfl
@[simp] theorem Block.setDuties_curD : (b.setDuties u v w).curD = b.curD := rfl
@[simp] theorem Block.setDuties_volD : (b.setDuties u v w).volD = b.volD := rfl
@[simp] theorem Block.setDuties_volQ : (b.setDuties u v w).volQ = b.volQ := rfl
@[simp] theorem Block.setDuties_volA : (b.setDuties u v w).volA = b.volA := rfl
@[simp] theorem Block.setDuties_volB : (b.setDuties u v w).volB = b.volB := rfl
@[simp] theorem Block.setDuties_dutyU : (b.setDuties u v w).dutyU = u := rfl
@[simp] theorem Block.setDuties_dutyV : (b.setDuties u v w).dutyV = v := rfl
@[simp] theorem Block.setDuties_dutyW : (b.setDuties u v w).dutyW = w := rfl
@[simp] theorem Block.setDuties_pid : (b.setDuties u v w).pid = b.pid := rfl
@[simp] theorem Block.setDuties_bank (j : Fin 4) : (b.setDuties u v w).bank j = b.bank j := rfl
end

section
variable (b : Block) (i : Fin 4) (v : Bank)
@[simp] theorem Block.setBank_illCmd : (b.setBank i v).illCmd = b.illCmd := rfl
@[simp] theorem Block.setBank_illAcc : (b.setBank i v).illAcc = b.illAcc := rfl
@[simp] theorem Block.setBank_theta : (b.setBank i v).theta = b.theta := rfl
@[simp] theorem Block.setBank_sin : (b.setBank i v).sin = b.sin := rfl
@[simp] theorem Block.setBank_cos : (b.setBank i v).cos = b.cos := rfl
@[simp] theorem Block.setBank_curU : (b.setBank i v).curU = b.curU := rfl
@[simp] theorem Block.setBank_curV : (b.setBank i v).curV = b.curV := rfl
@[simp] theorem Block.setBank_curW : (b.setBank i v).curW = b.curW := rfl
@[simp] theorem Block.setBank_curA : (b.setBank i v).curA = b.curA := rfl
@[simp] theorem Block.setBank_curB : (b.setBank i v).curB = b.curB := rfl
@[simp] theorem Block.setBank_curQ : (b.setBank i v).curQ = b.curQ := rfl
@[simp] theorem Block.setBank_curD : (b.setBank i v).curD = b.curD := rfl
@[simp] theorem Block.setBank_volD : (b.setBank i v).volD = b.volD := rfl
@[simp] theorem Block.setBank_volQ : (b.setBank i v).volQ = b.volQ := rfl
@[simp] theorem Block.setBank_volA : (b.setBank i v).volA = b.volA := rfl
@[simp] theorem Block.setBank_volB : (b.setBank i v).volB = b.volB := rfl
@[simp] theorem Block.setBank_dutyU : (b.setBank i v).dutyU = b.dutyU := rfl
@[simp] theorem Block.setBank_dutyV : (b.setBank i v).dutyV = b.dutyV := rfl
@[simp] theorem Block.setBank_dutyW : (b.setBank i v).dutyW = b.dutyW := rfl
@[simp] theorem Block.setBank_pid : (b.setBank i v).pid = b.pid.set i v := rfl
end

section
variable (b : Block)
@[simp] theorem Block.flagIllCmd_illCmd : (b.flagIllCmd).illCmd = true := rfl
@[simp] theorem Block.flagIllCmd_illAcc : (b.flagIllCmd).illAcc = b.illAcc := rfl
@[simp] theorem Block.flagIllCmd_theta : (b.flagIllCmd).theta = b.theta := rfl
@[simp] theorem Block.flagIllCmd_sin : (b.flagIllCmd).sin = b.sin := rfl
@[simp] theorem Block.flagIllCmd_cos : (b.flagIllCmd).cos = b.cos := rfl
@[simp] theorem Block.flagIllCmd_curU : (b.flagIllCmd).curU = b.curU := rfl
@[simp] theorem Block.flagIllCmd_curV : (b.flagIllCmd).curV = b.curV := rfl
@[simp] theorem Block.flagIllCmd_curW : (b.flagIllCmd).curW = b.curW := rfl
@[simp] theorem Block.flagIllCmd_curA : (b.flagIllCmd).curA = b.curA := rfl
@[simp] theorem Block.flagIllCmd_curB : (b.flagIllCmd).curB = b.curB := rfl
@[simp] theorem Block.flagIllCmd_curQ : (b.flagIllCmd).curQ = b.curQ := rfl
@[simp] theorem Block.flagIllCmd_curD : (b.flagIllCmd).curD = b.curD := rfl
@[simp] theorem Block.flagIllCmd_volD : (b.flagIllCmd).volD = b.volD := rfl
@[simp] theorem Block.flagIllCmd_volQ : (b.flagIllCmd).volQ = b.volQ := rfl
@[simp] theorem Block.flagIllCmd_volA : (b.flagIllCmd).volA = b.volA := rfl
@[simp] theorem Block.flagIllCmd_volB : (b.flagIllCmd).volB = b.volB := rfl
@[simp] theorem Block.flagIllCmd_dutyU : (b.flagIllCmd).dutyU = b.dutyU := rfl
@[simp] theorem Block.flagIllCmd_dutyV : (b.flagIllCmd).dutyV = b.dutyV := rfl
@[simp] theorem Block.flagIllCmd_dutyW : (b.flagIllCmd).dutyW = b.dutyW := rfl
@[simp] theorem Block.flagIllCmd_pid : (b.flagIllCmd).pid = b.pid := rfl
@[simp] theorem Block.flagIllCmd_bank (j : Fin 4) : (b.flagIllCmd).bank j = b.bank j := rfl
end

section
variable (b : Block)
@[simp] theorem Block.flagIllAcc_illCmd : (b.flagIllAcc).illCmd = b.illCmd := rfl
@[simp] theorem Block.flagIllAcc_illAcc : (b.flagIllAcc).illAcc = true := rfl
@[simp] theorem Block.flagIllAcc_theta : (b.flagIllAcc).theta = b.theta := rfl
@[simp] theorem Block.flagIllAcc_sin : (b.flagIllAcc).sin = b.sin := rfl
@[simp] theorem Block.flagIllAcc_cos : (b.flagIllAcc).cos = b.cos := rfl
@[simp] theorem Block.flagIllAcc_curU : (b.flagIllAcc).curU = b.curU := rfl
@[simp] theorem Block.flagIllAcc_curV : (b.flagIllAcc).curV = b.curV := rfl
@[simp] theorem Block.flagIllAcc_curW : (b.flagIllAcc).curW = b.curW := rfl
@[simp] theorem Block.flagIllAcc_curA : (b.flagIllAcc).curA = b.curA := rfl
@[simp] theorem Block.flagIllAcc_curB : (b.flagIllAcc).curB = b.curB := rfl
@[simp] theorem Block.flagIllAcc_curQ : (b.flagIllAcc).curQ = b.curQ := rfl
@[simp] theorem Block.flagIllAcc_curD : (b.flagIllAcc).curD = b.curD := rfl
@[simp] theorem Block.flagIllAcc_volD : (b.flagIllAcc).volD = b.volD := rfl
@[simp] theorem Block.flagIllAcc_volQ : (b.flagIllAcc).volQ = b.volQ := rfl
@[simp] theorem Block.flagIllAcc_volA : (b.flagIllAcc).volA = b.volA := rfl
@[simp] theorem Block.flagIllAcc_volB : (b.flagIllAcc).volB = b.volB := rfl
@[simp] theorem Block.flagIllAcc_dutyU : (b.flagIllAcc).dutyU = b.dutyU := rfl
@[simp] theorem Block.flagIllAcc_dutyV : (b.flagIllAcc).dutyV = b.dutyV := rfl
@[simp] theorem Block.flagIllAcc_dutyW : (b.flagIllAcc).dutyW = b.dutyW := rfl
@[simp] theorem Block.flagIllAcc_pid : (b.flagIllAcc).pid = b.pid := rfl
@[simp] theorem Block.flagIllAcc_bank (j : Fin 4) : (b.flagIllAcc).bank j = b.bank j := rfl
end

section
variable (b : Block) (w : Word)
@[simp] theorem Block.clearFlags_illCmd : (b.clearFlags w).illCmd = (b.illCmd && !w.getLsbD 0) := rfl
@[simp] theorem Block.clearFlags_illAcc : (b.clearFlags w).illAcc = (b.illAcc && !w.getLsbD 1) := rfl
@[simp] theorem Block.clearFlags_theta : (b.clearFlags w).theta = b.theta := rfl
@[simp] theorem Block.clearFlags_sin : (b.clearFlags w).sin = b.sin := rfl
@[simp] theorem Block.clearFlags_cos : (b.clearFlags w).cos = b.cos := rfl
@[simp] theorem Block.clearFlags_curU : (b.clearFlags w).curU = b.curU := rfl
@[simp] theorem Block.clearFlags_curV : (b.clearFlags w).curV = b.curV := rfl
@[simp] theorem Block.clearFlags_curW : (b.clearFlags w).curW = b.curW := rfl
@[simp] theorem Block.clearFlags_curA : (b.clearFlags w).curA = b.curA := rfl
@[simp] theorem Block.clearFlags_curB : (b.clearFlags w).curB = b.curB := rfl
@[simp] theorem Block.clearFlags_curQ : (b.clearFlags w).curQ = b.curQ := rfl
@[simp] theorem Block.clearFlags_curD : (b.clearFlags w).curD = b.curD := rfl
@[simp] theorem Block.clearFlags_volD : (b.clearFlags w).volD = b.volD := rfl
@[simp] theorem Block.clearFlags_volQ : (b.clearFlags w).volQ = b.volQ := rfl
@[simp] theorem Block.clearFlags_volA : (b.clearFlags w).volA = b.volA := rfl
@[simp] theorem Block.clearFlags_volB : (b.clearFlags w).volB = b.volB := rfl
@[simp] theorem Block.clearFlags_dutyU : (b.clearFlags w).dutyU = b.dutyU := rfl
@[simp] theorem Block.clearFlags_dutyV : (b.clearFlags w).dutyV = b.dutyV := rfl
@[simp] theorem Block.clearFlags_dutyW : (b.clearFlags w).dutyW = b.dutyW := rfl
@[simp] theorem Block.clearFlags_pid : (b.clearFlags w).pid = b.pid := rfl
@[simp] theorem Block.clearFlags_bank (j : Fin 4) : (b.clearFlags w).bank j = b.bank j := rfl
end

/-! ## Updates of the state -/

section
variable (s : State)
@[simp] theorem raiseIllCmd_block : (raiseIllCmd s).block = s.block.flagIllCmd := rfl
@[simp] theorem raiseIllCmd_filtQ : (raiseIllCmd s).filtQ = s.filtQ := rfl
@[simp] theorem raiseIllCmd_filtD : (raiseIllCmd s).filtD = s.filtD := rfl
@[simp] theorem raiseIllCmd_history : (raiseIllCmd s).history = s.history := rfl
@[simp] theorem raiseIllCmd_pending : (raiseIllCmd s).pending = s.pending := rfl
end

section
variable (s : State)
@[simp] theorem raiseIllAcc_block : (raiseIllAcc s).block = s.block.flagIllAcc := rfl
@[simp] theorem raiseIllAcc_filtQ : (raiseIllAcc s).filtQ = s.filtQ := rfl
@[simp] theorem raiseIllAcc_filtD : (raiseIllAcc s).filtD = s.filtD := rfl
@[simp] theorem raiseIllAcc_history : (raiseIllAcc s).history = s.history := rfl
@[simp] theorem raiseIllAcc_pending : (raiseIllAcc s).pending = s.pending := rfl
end

section
variable (e : Event) (s : State)
@[simp] theorem record_block : (record e s).block = s.block := rfl
@[simp] theorem record_filtQ : (record e s).filtQ = s.filtQ := rfl
@[simp] theorem record_filtD : (record e s).filtD = s.filtD := rfl
@[simp] theorem record_history : (record e s).history = s.history ++ [e] := rfl
@[simp] theorem record_pending : (record e s).pending = s.pending := rfl
end

section
variable (rest : List Input) (s : State)
@[simp] theorem withPending_block : (withPending rest s).block = s.block := rfl
@[simp] theorem withPending_filtQ : (withPending rest s).filtQ = s.filtQ := rfl
@[simp] theorem withPending_filtD : (withPending rest s).filtD = s.filtD := rfl
@[simp] theorem withPending_history : (withPending rest s).history = s.history := rfl
@[simp] theorem withPending_pending : (withPending rest s).pending = rest := rfl
end

section
variable (s : State)
@[simp] theorem resetBlock_block : (resetBlock s).block = Block.reset := rfl
@[simp] theorem resetBlock_filtQ : (resetBlock s).filtQ = s.filtQ := rfl
@[simp] theorem resetBlock_filtD : (resetBlock s).filtD = s.filtD := rfl
@[simp] theorem resetBlock_history : (resetBlock s).history = s.history := rfl
@[simp] theorem resetBlock_pending : (resetBlock s).pending = s.pending := rfl
end

section
variable (p : Platform) (q d : Word) (s : State)
@[simp] theorem exchangeFilters_block :
    (exchangeFilters p q d s).block = s.block.setRotating (s.filtQ.sample p.filtQ q).2 (s.filtD.sample p.filtD d).2 := rfl
@[simp] theorem exchangeFilters_filtQ : (exchangeFilters p q d s).filtQ = (s.filtQ.sample p.filtQ q).1 := rfl
@[simp] theorem exchangeFilters_filtD : (exchangeFilters p q d s).filtD = (s.filtD.sample p.filtD d).1 := rfl
@[simp] theorem exchangeFilters_history :
    (exchangeFilters p q d s).history = s.history ++
      [.filtQ q (s.filtQ.sample p.filtQ q).2, .filtD d (s.filtD.sample p.filtD d).2] := rfl
@[simp] theorem exchangeFilters_pending : (exchangeFilters p q d s).pending = s.pending := rfl
end

section
variable (u v w : Word) (s : State)
@[simp] theorem emitDuty_block : (emitDuty u v w s).block = s.block.setDuties u v w := rfl
@[simp] theorem emitDuty_filtQ : (emitDuty u v w s).filtQ = s.filtQ := rfl
@[simp] theorem emitDuty_filtD : (emitDuty u v w s).filtD = s.filtD := rfl
@[simp] theorem emitDuty_history : (emitDuty u v w s).history = s.history ++ [.setDuty u v w] := rfl
@[simp] theorem emitDuty_pending : (emitDuty u v w s).pending = s.pending := rfl
end

section
variable (p : Word × Word) (s : State)
@[simp] theorem putAngle_block : (putAngle p s).block = s.block.setAngle p := rfl
@[simp] theorem putAngle_filtQ : (putAngle p s).filtQ = s.filtQ := rfl
@[simp] theorem putAngle_filtD : (putAngle p s).filtD = s.filtD := rfl
@[simp] theorem putAngle_history : (putAngle p s).history = s.history := rfl
@[simp] theorem putAngle_pending : (putAngle p s).pending = s.pending := rfl
end

section
variable (ia ib : Word) (s : State)
@[simp] theorem putStationary_block : (putStationary ia ib s).block = s.block.setStationary ia ib := rfl
@[simp] theorem putStationary_filtQ : (putStationary ia ib s).filtQ = s.filtQ := rfl
@[simp] theorem putStationary_filtD : (putStationary ia ib s).filtD = s.filtD := rfl
@[simp] theorem putStationary_history : (putStationary ia ib s).history = s.history := rfl
@[simp] theorem putStationary_pending : (putStationary ia ib s).pending = s.pending := rfl
end

section
variable (ua ub : Word) (s : State)
@[simp] theorem putVoltage_block : (putVoltage ua ub s).block = s.block.setVoltage ua ub := rfl
@[simp] theorem putVoltage_filtQ : (putVoltage ua ub s).filtQ = s.filtQ := rfl
@[simp] theorem putVoltage_filtD : (putVoltage ua ub s).filtD = s.filtD := rfl
@[simp] theorem putVoltage_history : (putVoltage ua ub s).history = s.history := rfl
@[simp] theorem putVoltage_pending : (putVoltage ua ub s).pending = s.pending := rfl
end

section
variable (i : Fin 4) (v : Bank) (s : State)
@[simp] theorem putBank_block : (putBank i v s).block = s.block.setBank i v := rfl
@[simp] theorem putBank_filtQ : (putBank i v s).filtQ = s.filtQ := rfl
@[simp] theorem putBank_filtD : (putBank i v s).filtD = s.filtD := rfl
@[simp] theorem putBank_history : (putBank i v s).history = s.history := rfl
@[simp] theorem putBank_pending : (putBank i v s).pending = s.pending := rfl
end

section
variable (s : State) (xs : List Input)
@[simp] theorem State.issue_block : (s.issue xs).block = s.block := rfl
@[simp] theorem State.issue_filtQ : (s.issue xs).filtQ = s.filtQ := rfl
@[simp] theorem State.issue_filtD : (s.issue xs).filtD = s.filtD := rfl
@[simp] theorem State.issue_history : (s.issue xs).history = s.history := rfl
@[simp] theorem State.issue_pending : (s.issue xs).pending = s.pending ++ xs := rfl
end

end Sys2Proof.Machine
end

