-- ==== Sys2Proof/Laws/Operands.lean ====
section
/-! SUPPORT. The bank selection, the register map and the accessors of a register, once each. -/

namespace Sys2Proof.Machine

@[simp] theorem Banks.get_set_self (b : Banks) (i : Fin 4) (v : Bank) : (b.set i v).get i = v := by
  fin_cases i <;> rfl

theorem Banks.get_set_ne (b : Banks) {i j : Fin 4} (v : Bank) (h : j ≠ i) : (b.set i v).get j = b.get j := by
  fin_cases i <;> fin_cases j <;> first | rfl | exact absurd rfl h

@[simp] theorem Banks.set_get_self (b : Banks) (i : Fin 4) : b.set i (b.get i) = b := by
  fin_cases i <;> rfl

@[simp] theorem Block.bank_setBank_self (b : Block) (i : Fin 4) (v : Bank) : (b.setBank i v).bank i = v :=
  Banks.get_set_self b.pid i v

theorem Block.bank_setBank_ne (b : Block) {i j : Fin 4} (v : Bank) (h : j ≠ i) :
    (b.setBank i v).bank j = b.bank j :=
  Banks.get_set_ne b.pid v h

/-- Every bank is a reset bank after reset. -/
@[simp] theorem Block.reset_bank (i : Fin 4) : Block.reset.bank i = Bank.reset := by
  fin_cases i <;> rfl

/-- Storing into a bank keeps the four read-only registers. -/
theorem Bank.storeReg_results (b : Bank) (f : BankReg) (w : Word) :
    (b.storeReg f w).err1 = b.err1 ∧ (b.storeReg f w).err2 = b.err2 ∧
      (b.storeReg f w).integ = b.integ ∧ (b.storeReg f w).out = b.out := by
  cases f <;> exact ⟨rfl, rfl, rfl, rfl⟩

/-- Storing into a register keeps every read-only register outside the banks and both flags. -/
theorem Block.storeReg_readOnly (b : Block) (r : Reg) (w : Word) :
    (b.storeReg r w).sin = b.sin ∧ (b.storeReg r w).cos = b.cos ∧
      (b.storeReg r w).curQ = b.curQ ∧ (b.storeReg r w).curD = b.curD ∧
      (b.storeReg r w).dutyU = b.dutyU ∧ (b.storeReg r w).dutyV = b.dutyV ∧ (b.storeReg r w).dutyW = b.dutyW ∧
      (b.storeReg r w).illCmd = b.illCmd ∧ (b.storeReg r w).illAcc = b.illAcc := by
  cases r <;> exact ⟨rfl, rfl, rfl, rfl, rfl, rfl, rfl, rfl, rfl⟩

/-- Where a stored word is found: in the register written, the banks of the others untouched. -/
theorem Block.storeReg_bank (b : Block) (r : Reg) (w : Word) (j : Fin 4) :
    (b.storeReg r w).bank j = b.bank j ∨
      ∃ f, r = .bank j f ∧ (b.storeReg r w).bank j = (b.bank j).storeReg f w := by
  cases r with
  | bank i f =>
    by_cases h : j = i
    · subst h
      exact .inr ⟨f, rfl, Block.bank_setBank_self _ _ _⟩
    · exact .inl (Block.bank_setBank_ne _ _ h)
  | _ => exact .inl rfl

/-- The index of a bank register is the arithmetic of R40 without wrapping. -/
theorem bankIndex_toNat (i : Fin 4) (f : BankReg) :
    (Reg.bank i f).index.toNat = 0x40 + 0x10 * i.val + f.offset := by
  fin_cases i <;> cases f <;> rfl

end Sys2Proof.Machine
end

