-- ==== Sys2Proof/Laws/PerInstr.lean ====
section
/-! SUPPORT. Families of statements about every command as syntax, one lemma per constructor. -/

namespace Sys2Proof.Laws.EncodesItsRow

/-- The word of a command matches the mask and pattern of its own row, and that row is in the table (30_encoding.md
R104). -/
def Statement (i : Instr) : Prop := i.row ∈ opcodeTable ∧ i.row.matchesWord (encode i) = true

theorem nop : Statement .nop := by unfold Statement; decide
theorem sincos : Statement .sincos := by unfold Statement; decide
theorem clarke : Statement .clarke := by unfold Statement; decide
theorem park : Statement .park := by unfold Statement; decide
theorem updcur : Statement .updcur := by unfold Statement; decide
theorem ipark : Statement .ipark := by unfold Statement; decide
theorem iclarke : Statement .iclarke := by unfold Statement; decide
theorem synth : Statement .synth := by unfold Statement; decide
theorem pidc (idx : Fin 4) : Statement (.pidc idx) := by unfold Statement; revert idx; decide

end Sys2Proof.Laws.EncodesItsRow

namespace Sys2Proof.Laws.WellFormed

/-- Every term of `Instr` is well-formed: the one operand field is bounded by its type (30_encoding.md R103). -/
def Statement (i : Instr) : Prop := i.wf = true

theorem nop : Statement .nop := rfl
theorem sincos : Statement .sincos := rfl
theorem clarke : Statement .clarke := rfl
theorem park : Statement .park := rfl
theorem updcur : Statement .updcur := rfl
theorem ipark : Statement .ipark := rfl
theorem iclarke : Statement .iclarke := rfl
theorem synth : Statement .synth := rfl
theorem pidc (idx : Fin 4) : Statement (.pidc idx) := by unfold Statement; revert idx; decide

end Sys2Proof.Laws.WellFormed
end

