-- ==== Sys2Proof/Laws/Rounding.lean ====
section
/-! SUPPORT. The value of a word in units of 2^-149, and rounding: to the nearest, on a tie to the even, exact on a
representable value, an infinity from its threshold on (40_numerics.md R121, R122). -/

namespace Sys2Proof.Machine

/-- The value of R121 is the integer `scaled` in units of 2^-149. -/
theorem val_eq_scaled (b : Word) : val b = (scaled b : ℚ) / 2 ^ 149 := by
  have hs : (scaled b : ℚ) = (if signOf b then -1 else 1) * (magOf b : ℚ) := by
    unfold scaled; split <;> push_cast <;> ring
  rw [hs]
  unfold val magOf
  by_cases h : expOf b = 0
  · simp only [h, if_true]
    have : (2:ℚ) ^ (-126:ℤ) = 2^23 / 2^149 := by norm_num
    rw [this]; ring
  · simp only [h, if_false]
    have : (2:ℚ) ^ ((expOf b : ℤ) - 127) = 2^23 * 2 ^ (expOf b - 1) / 2^149 := by
      rw [eq_div_iff (by positivity), ← pow_add, ← zpow_natCast, ← zpow_natCast, ← zpow_add₀ (by norm_num)]
      congr 1
      push_cast [Nat.cast_sub (Nat.one_le_iff_ne_zero.mpr h)]
      ring
    rw [this]; push_cast; ring

/-- No integer is nearer a quotient than `rne`. -/
theorem rne_nearest {n d : Nat} (hd : 0 < d) (j : Int) :
    |(rne n d : Int) * d - n| ≤ |j * d - n| := by
  obtain ⟨h1, h2⟩ := rne_near (n := n) hd
  zify at h1 h2
  have hd' : (0:Int) < d := by exact_mod_cast hd
  generalize (rne n d : Int) = k at *
  generalize (n : Int) = N at *
  generalize (d : Int) = D at *
  have hk : 2 * |k * D - N| ≤ D := by
    rcases abs_cases (k * D - N) with ⟨h, _⟩ | ⟨h, _⟩ <;> rw [h] <;> linarith
  by_cases e : j = k
  · rw [e]
  · have : D ≤ |j * D - k * D| := by
      rw [← sub_mul, abs_mul, abs_of_pos hd']
      have : 1 ≤ |j - k| := Int.one_le_abs (sub_ne_zero.mpr e)
      nlinarith
    have t := abs_sub_le (j * D) N (k * D)
    rw [abs_sub_comm N (k * D)] at t
    linarith

/-- Where another integer is as near, `rne` is even. -/
theorem rne_tie {n d : Nat} (hd : 0 < d) {j : Int} (hj : j ≠ rne n d)
    (h : |(rne n d : Int) * d - n| = |j * d - n|) : rne n d % 2 = 0 := by
  have hdm := Nat.div_add_mod n d
  have hm := Nat.mod_lt n hd
  unfold rne at *
  generalize hq : n / d = q at *
  generalize hr : n % d = r at *
  have hN : (n : Int) = d * q + r := by exact_mod_cast hdm.symm
  split at h
  · rename_i c
    exfalso
    rw [if_pos c] at hj
    rw [hN] at h
    have e1 : (q : Int) * d - (d * q + r) = - r := by ring
    have e2 : j * d - (d * q + r) = (j - q) * d - r := by ring
    rw [e1, e2, abs_neg, abs_of_nonneg (by omega)] at h
    rcases lt_or_gt_of_ne hj with g | g
    · have : (j - q) * d ≤ -1 * d := by apply mul_le_mul_of_nonneg_right <;> omega
      rw [abs_of_neg (by omega)] at h; omega
    · have : 1 * (d:Int) ≤ (j - q) * d := by apply mul_le_mul_of_nonneg_right <;> omega
      rw [abs_of_pos (by omega)] at h; omega
  · split at h
    · rename_i c1 c
      exfalso
      rw [if_neg c1, if_pos c] at hj
      rw [hN] at h
      push_cast at h hj
      have e1 : ((q : Int) + 1) * d - (d * q + r) = d - r := by ring
      have e2 : j * d - (d * q + r) = (j - q) * d - r := by ring
      rw [e1, e2, abs_of_pos (by omega)] at h
      rcases lt_or_gt_of_ne hj with g | g
      · have : (j - q) * d ≤ 0 * d := by apply mul_le_mul_of_nonneg_right <;> omega
        rw [abs_of_nonpos (by omega)] at h; omega
      · have : 2 * (d:Int) ≤ (j - q) * d := by apply mul_le_mul_of_nonneg_right <;> omega
        rw [abs_of_pos (by omega)] at h; omega
    · rename_i c1 c2; rw [if_neg c1, if_neg c2]; omega

/-- The magnitude, in units of 2^-149, that 31 bits stand for. -/
def magBits (m : Nat) : Nat := if m / 2^23 = 0 then m % 2^23 else (2^23 + m % 2^23) * 2 ^ (m / 2^23 - 1)
theorem magOf_packWord {s : Bool} {m : Nat} (h : m < 2 ^ 31) : magOf (packWord s m) = magBits m := by
  rw [magOf, expOf_packWord h, fracOf_packWord h, magBits]
/-- The magnitude of `sh * 2^23 + k` is `k * 2^sh`, also where `k` carries into the next binade. -/
theorem magBits_significand {sh k : Nat} (h : k ≤ 2^24) (h2 : sh = 0 ∨ 2^23 ≤ k) : magBits (sh * 2^23 + k) = k * 2 ^ sh := by
  unfold magBits
  by_cases hk : k < 2^23
  · have : sh = 0 := by omega
    subst this
    have h0 : (0 * 2^23 + k) / 2^23 = 0 := by omega
    rw [if_pos h0]; simp; omega
  · by_cases hk2 : k = 2^24
    · subst hk2
      have h0 : (sh * 2^23 + 2^24) / 2^23 = sh + 2 := by omega
      have h1 : (sh * 2^23 + 2^24) % 2^23 = 0 := by omega
      rw [h0, h1, if_neg (by omega)]
      have : sh + 2 - 1 = sh + 1 := by omega
      rw [this, pow_succ]; ring
    · have h0 : (sh * 2^23 + k) / 2^23 = sh + 1 := by omega
      have h1 : 2^23 + (sh * 2^23 + k) % 2^23 = k := by omega
      rw [h0, h1, if_neg (by omega)]
      simp

/-- What `roundMag` computes: a binade shift `sh` and a significand rounded to nearest in units of `d * 2^sh`, the significand
of at least 2^23 above the lowest binade, and the number below the top of the binade. -/
theorem roundMag_spec {n d : Nat} (hd : 0 < d) : ∃ sh,
    roundMag n d = min (sh * 2 ^ 23 + rne n (d * 2 ^ sh)) 0x7F800000 ∧ rne n (d * 2 ^ sh) ≤ 2 ^ 24 ∧
    (sh = 0 ∨ 2 ^ 23 ≤ rne n (d * 2 ^ sh)) ∧ (sh = 0 ∨ 2 ^ 23 * (d * 2 ^ sh) ≤ n) ∧ n < 2 ^ 24 * (d * 2 ^ sh) := by
  refine ⟨Nat.log2 (n / d) - 23, rfl, ?_⟩
  set L := Nat.log2 (n / d) with hL
  set sh := L - 23 with hsh
  have hlt : n / d < 2 ^ (L + 1) := by
    by_cases h0 : n / d = 0
    · rw [h0]; positivity
    · exact Nat.lt_log2_self
  have hp : 2 ^ (L + 1) ≤ 2 ^ 24 * 2 ^ sh := by
    rw [← pow_add]; exact Nat.pow_le_pow_right (by norm_num) (by omega)
  have hn : n < 2 ^ 24 * (d * 2 ^ sh) := by
    have h1 : n < d * 2 ^ (L + 1) := by
      have := Nat.lt_of_lt_of_le (Nat.lt_succ_self _) (Nat.succ_le_of_lt hlt)
      calc n < d * (n / d + 1) := Nat.lt_mul_div_succ n hd
        _ ≤ d * 2 ^ (L + 1) := Nat.mul_le_mul_left _ hlt
    calc n < d * 2 ^ (L + 1) := h1
      _ ≤ d * (2 ^ 24 * 2 ^ sh) := Nat.mul_le_mul_left _ hp
      _ = _ := by ring
  have hlow : sh = 0 ∨ 2 ^ 23 * (d * 2 ^ sh) ≤ n := by
    by_cases h : sh = 0
    · exact .inl h
    · right
      have hne : n / d ≠ 0 := by
        intro h0; rw [h0] at hL; simp at hL; omega
      have hle : 2 ^ L ≤ n / d := Nat.log2_self_le hne
      have : L = 23 + sh := by omega
      rw [this, pow_add] at hle
      calc 2 ^ 23 * (d * 2 ^ sh) = d * (2 ^ 23 * 2 ^ sh) := by ring
        _ ≤ d * (n / d) := Nat.mul_le_mul_left _ hle
        _ ≤ n := Nat.mul_div_le n d
  have hD : 0 < d * 2 ^ sh := by positivity
  obtain ⟨b1, b2⟩ := rne_bounds n (d * 2 ^ sh)
  refine ⟨?_, ?_, hlow, hn⟩
  · have : n / (d * 2 ^ sh) < 2 ^ 24 := by rw [Nat.div_lt_iff_lt_mul hD]; exact hn
    omega
  · rcases hlow with h | h
    · exact .inl h
    · right
      have : 2 ^ 23 ≤ n / (d * 2 ^ sh) := by rw [Nat.le_div_iff_mul_le hD]; exact h
      omega

/-- Every magnitude is a significand below 2^24 times a power of two. -/
theorem magOf_form (y : Word) : ∃ sh k, magOf y = k * 2 ^ sh ∧ k < 2 ^ 24 := by
  unfold magOf
  have := fracOf_lt y
  split
  · exact ⟨0, fracOf y, by simp, by omega⟩
  · exact ⟨expOf y - 1, 2 ^ 23 + fracOf y, rfl, by omega⟩

/-- A result below the infinity is nearest among the signed magnitudes of all words, and even where another is as near. -/
theorem round_nearest_scaled {n d : Nat} (hd : 0 < d) (hf : roundMag n d < 0x7F800000) (y : Word) (e : Int) (he : e = magOf y ∨ e = -(magOf y : Int)) :
    |(magBits (roundMag n d) : Int) * d - n| ≤ |e * d - n| ∧
    (e ≠ magBits (roundMag n d) → |(magBits (roundMag n d) : Int) * d - n| = |e * d - n| → roundMag n d % 2 = 0) := by
  obtain ⟨sh, h1, h2, h3, h4, h5⟩ := roundMag_spec (n := n) hd
  have hm : roundMag n d = sh * 2 ^ 23 + rne n (d * 2 ^ sh) := by omega
  have hD : 0 < d * 2 ^ sh := by positivity
  have hmag : magBits (roundMag n d) = rne n (d * 2 ^ sh) * 2 ^ sh := by rw [hm]; exact magBits_significand h2 h3
  have hx : ((magBits (roundMag n d) : Int)) * d = (rne n (d * 2 ^ sh) : Int) * ((d * 2 ^ sh : Nat) : Int) := by
    rw [hmag]; push_cast; ring
  have hpar : rne n (d * 2 ^ sh) % 2 = 0 → roundMag n d % 2 = 0 := by omega
  rw [hx]
  obtain ⟨sh', k', hk', hlt⟩ := magOf_form y
  by_cases hc : ∃ j : Int, e = j * 2 ^ sh
  · obtain ⟨j, hj⟩ := hc
    have ej : e * d = j * ((d * 2 ^ sh : Nat) : Int) := by rw [hj]; push_cast; ring
    rw [ej]
    refine ⟨rne_nearest hD j, fun hne hh => hpar (rne_tie hD ?_ hh)⟩
    intro hjj
    apply hne
    rw [hmag, hj, hjj]; push_cast; ring
  · have hs : sh' < sh := by
      by_contra hge
      apply hc
      have e2 : (magOf y : Int) = (k' * 2 ^ (sh' - sh)) * 2 ^ sh := by
        rw [hk']; push_cast; rw [mul_assoc, ← pow_add]; congr 2; omega
      rcases he with he | he
      · exact ⟨_, he.trans e2⟩
      · exact ⟨-(k' * 2 ^ (sh' - sh)), by rw [he, e2]; ring⟩
    have hsh : sh ≠ 0 := by omega
    have h4' : 2 ^ 23 * (d * 2 ^ sh) ≤ n := by omega
    have hmagy : magOf y < 2 ^ 23 * 2 ^ sh := by
      rw [hk']
      calc k' * 2 ^ sh' < 2 ^ 24 * 2 ^ sh' := Nat.mul_lt_mul_of_pos_right hlt (by positivity)
        _ = 2 ^ 23 * 2 ^ (sh' + 1) := by rw [pow_succ]; ring
        _ ≤ 2 ^ 23 * 2 ^ sh := Nat.mul_le_mul_left _ (Nat.pow_le_pow_right (by norm_num) (by omega))
    have hle : e ≤ magOf y := by omega
    have hD' : (0 : Int) < d := by exact_mod_cast hd
    have hlt2 : e * d < 2 ^ 23 * ((d * 2 ^ sh : Nat) : Int) := by
      have : e < 2 ^ 23 * 2 ^ sh := lt_of_le_of_lt hle (by exact_mod_cast hmagy)
      calc e * d < (2 ^ 23 * 2 ^ sh) * d := mul_lt_mul_of_pos_right this hD'
        _ = _ := by push_cast; ring
    have near := rne_nearest (n := n) hD (2 ^ 23)
    have hn' : (2:Int) ^ 23 * ((d * 2 ^ sh : Nat) : Int) ≤ n := by exact_mod_cast h4'
    rw [abs_of_nonpos (a := 2 ^ 23 * ((d * 2 ^ sh : Nat) : Int) - n) (by linarith)] at near
    have : |e * d - n| = n - e * d := by rw [abs_of_neg (by linarith)]; ring
    rw [this]
    refine ⟨by linarith, fun _ hh => ?_⟩
    linarith

/-- A finite result of `round32` was not capped. -/
theorem isFinite_round {num : Int} {den : Nat} {z : Bool} (h0 : num ≠ 0) (h : isFinite (round32 num den z) = true) :
    roundMag (num.natAbs * unitsPerOne) den < 0x7F800000 := by
  rw [round32, if_neg h0, isFinite_eq, expOf_packWord (roundMag_lt _ _)] at h
  have := roundMag_le (num.natAbs * unitsPerOne) den
  omega

/-- A word is its magnitude or the opposite. -/
theorem scaled_cases (y : Word) : scaled y = magOf y ∨ scaled y = -(magOf y : Int) := by
  unfold scaled; split <;> simp

/-- A whole quotient is its own nearest integer. -/
theorem rne_mul_exact {k d : Nat} (hd : 0 < d) : rne (k * d) d = k := by
  unfold rne; rw [Nat.mul_mod_left, Nat.mul_div_cancel _ hd, if_pos (by omega)]

/-- A quotient halfway between two integers goes to the even one. -/
theorem rne_half {q P : Nat} (hP : 0 < P) : rne ((2 * q + 1) * P) (2 * P) = q + q % 2 := by
  have e : (2 * q + 1) * P = P + (2 * P) * q := by ring
  have hd : (2 * q + 1) * P / (2 * P) = q := by
    rw [e, Nat.add_mul_div_left _ _ (by omega), Nat.div_eq_of_lt (by omega), zero_add]
  have hm : (2 * q + 1) * P % (2 * P) = P := by
    rw [e, Nat.add_mul_mod_self_left, Nat.mod_eq_of_lt (by omega)]
  unfold rne
  rw [hd, hm, if_neg (by omega), if_neg (by omega)]

/-- The result is the infinity exactly from halfway between the largest finite magnitude and 2^277 units on. -/
theorem roundMag_overflow {n d : Nat} (hd : 0 < d) :
    roundMag n d = 0x7F800000 ↔ (2 ^ 25 - 1) * 2 ^ 252 * d ≤ n := by
  obtain ⟨sh, h1, h2, h3, h4, h5⟩ := roundMag_spec (n := n) hd
  have hD : 0 < d * 2 ^ sh := by positivity
  have near := rne_near (n := n) hD
  constructor
  · intro h
    have hs : 0x7F800000 ≤ sh * 2 ^ 23 + rne n (d * 2 ^ sh) := by omega
    by_cases c : sh = 253
    · subst c
      have hk : rne n (d * 2 ^ 253) = 2 ^ 24 := by omega
      rw [hk] at near
      have : 2 * (2 ^ 24 * (d * 2 ^ 253)) - d * 2 ^ 253 ≤ 2 * n := by omega
      have e : 2 * (2 ^ 24 * (d * 2 ^ 253)) - d * 2 ^ 253 = 2 * ((2 ^ 25 - 1) * 2 ^ 252 * d) := by
        have : d * 2 ^ 253 = 2 * (2 ^ 252 * d) := by rw [pow_succ]; ring
        rw [this]; omega
      omega
    · have hsh : 254 ≤ sh := by omega
      have h4' : 2 ^ 23 * (d * 2 ^ sh) ≤ n := by omega
      calc (2 ^ 25 - 1) * 2 ^ 252 * d ≤ 2 ^ 25 * 2 ^ 252 * d := by gcongr; omega
        _ = 2 ^ 23 * (d * 2 ^ 254) := by ring
        _ ≤ 2 ^ 23 * (d * 2 ^ sh) := by gcongr; omega
        _ ≤ n := h4'
  · intro h
    rw [h1]
    have hsh : 253 ≤ sh := by
      by_contra hc
      have : n < 2 ^ 24 * (d * 2 ^ 252) := lt_of_lt_of_le h5 (by gcongr; omega; omega)
      have e : (2 ^ 25 - 1) * 2 ^ 252 * d = (2 ^ 25 - 1) * (d * 2 ^ 252) := by ring
      rw [e] at h
      have : 0 < d * 2 ^ 252 := by positivity
      omega
    by_cases c : sh = 253
    · subst c
      have e2 : d * 2 ^ 253 = 2 * (2 ^ 252 * d) := by rw [pow_succ]; ring
      have e : (2 ^ 25 - 1) * 2 ^ 252 * d = (2 ^ 25 - 1) * (2 ^ 252 * d) := by ring
      rw [e] at h
      rw [e2] at near h2 ⊢
      have hP : 0 < 2 ^ 252 * d := by positivity
      generalize 2 ^ 252 * d = P at *
      have hk : rne n (2 * P) = 2 ^ 24 := by
        by_contra hne
        have hle : rne n (2 * P) ≤ 2 ^ 24 - 1 := by omega
        have hx : n = (2 * (2 ^ 24 - 1) + 1) * P := by
          have : 2 * n ≤ (2 * (2 ^ 24 - 1) + 1) * (2 * P) := le_trans near.1 (Nat.mul_le_mul_right _ (by omega))
          omega
        rw [hx, rne_half hP] at hne
        exact hne (by norm_num)
      omega
    · omega

/-- A magnitude below the infinity's is at most the largest finite one. -/
theorem magBits_lt {m : Nat} (h : m < 0x7F800000) : magBits m ≤ (2 ^ 24 - 1) * 2 ^ 253 := by
  unfold magBits
  split
  · calc m % 2 ^ 23 ≤ 2^24 - 1 := by omega
      _ ≤ _ := by norm_num; 
  · apply Nat.mul_le_mul (by omega) (Nat.pow_le_pow_right (by norm_num) (by omega))

/-- Magnitudes grow with their 31 bits, so that no two words below the infinity share one. -/
theorem magBits_strictMono {m m' : Nat} (h : m < m') : magBits m < magBits m' := by
  have step : ∀ m, magBits m < magBits (m + 1) := by
    intro m
    have hf : m = (m / 2 ^ 23) * 2 ^ 23 + m % 2 ^ 23 := by omega
    by_cases c : m / 2 ^ 23 = 0
    · have a := magBits_significand (sh := 0) (k := m) (by omega) (.inl rfl)
      have b := magBits_significand (sh := 0) (k := m + 1) (by omega) (.inl rfl)
      simp only [zero_mul, zero_add, pow_zero, mul_one] at a b
      omega
    · obtain ⟨sh, hs⟩ : ∃ sh, m / 2 ^ 23 = sh + 1 := ⟨m / 2 ^ 23 - 1, by omega⟩
      have a := magBits_significand (sh := sh) (k := 2 ^ 23 + m % 2 ^ 23) (by omega) (.inr (by omega))
      have b := magBits_significand (sh := sh) (k := 2 ^ 23 + m % 2 ^ 23 + 1) (by omega) (.inr (by omega))
      have ea : sh * 2 ^ 23 + (2 ^ 23 + m % 2 ^ 23) = m := by omega
      have eb : sh * 2 ^ 23 + (2 ^ 23 + m % 2 ^ 23 + 1) = m + 1 := by omega
      rw [ea] at a; rw [eb] at b; rw [a, b]
      exact Nat.mul_lt_mul_of_pos_right (by omega) (by positivity)
  induction h with
  | refl => exact step m
  | step _ ih => exact ih.trans (step _)

/-- A representable magnitude rounds to itself. -/
theorem roundMag_exact {m d : Nat} (hd : 0 < d) (hm : m < 0x7F800000) : roundMag (magBits m * d) d = m := by
  have hlt : roundMag (magBits m * d) d < 0x7F800000 := by
    have h := roundMag_le (magBits m * d) d
    rcases Nat.lt_or_ge (roundMag (magBits m * d) d) 0x7F800000 with g | g
    · exact g
    · exfalso
      have := (roundMag_overflow hd).1 (le_antisymm h g)
      have b := magBits_lt hm
      have : (2 ^ 25 - 1) * 2 ^ 252 ≤ magBits m := Nat.le_of_mul_le_mul_right this hd
      have : (2:Nat) ^ 253 = 2 * 2 ^ 252 := by rw [pow_succ]; ring
      have : 0 < (2:Nat) ^ 252 := by positivity
      omega
  have n := (round_nearest_scaled (n := magBits m * d) hd hlt (packWord false m) (magBits m)
    (.inl (by rw [magOf_packWord (by omega)]))).1
  have z : ((magBits m : Int)) * d - ((magBits m * d : Nat) : Int) = 0 := by push_cast; ring
  rw [z, abs_zero] at n
  have e := abs_eq_zero.1 (le_antisymm n (abs_nonneg _))
  have hd' : (d : Int) ≠ 0 := by exact_mod_cast hd.ne'
  have e2 : (magBits (roundMag (magBits m * d) d) : Int) = magBits m := by
    apply mul_right_cancel₀ hd'; push_cast at e ⊢; linarith
  have e3 : magBits (roundMag (magBits m * d) d) = magBits m := by exact_mod_cast e2
  rcases lt_trichotomy (roundMag (magBits m * d) d) m with g | g | g
  · exact absurd e3 (magBits_strictMono g).ne
  · exact g
  · exact absurd e3 (magBits_strictMono g).ne'

/-- The magnitude of a word is that of its low 31 bits. -/
theorem magOf_eq_magBits (b : Word) : magOf b = magBits (2 ^ 23 * expOf b + fracOf b) := by
  have e := packWord_fields b
  have h1 := expOf_lt b
  have h2 := fracOf_lt b
  conv_lhs => rw [← e]
  rw [magOf_packWord (by omega)]

/-- Rounding the value of a finite non-zero word gives the word back. -/
theorem round32_exact {num : Int} {den : Nat} {z : Bool} {w : Word} (hw : isFinite w = true) (hd : den ≠ 0) (h0 : num ≠ 0)
    (h : num * (unitsPerOne : Int) = scaled w * den) : round32 num den z = w := by
  rw [round32, if_neg h0]
  have hd' : 0 < den := Nat.pos_of_ne_zero hd
  have hu : 0 < unitsPerOne := by unfold unitsPerOne; positivity
  have he : expOf w ≠ 255 := (isFinite_eq w).1 hw
  have h1 := expOf_lt w
  have h2 := fracOf_lt w
  have hab : num.natAbs * unitsPerOne = magOf w * den := by
    have := congrArg Int.natAbs h
    rw [Int.natAbs_mul, Int.natAbs_mul] at this
    have hsc : (scaled w).natAbs = magOf w := by
      rcases scaled_cases w with c | c <;> rw [c] <;> simp
    rw [hsc] at this
    simpa using this
  rw [hab, magOf_eq_magBits, roundMag_exact hd' (by omega)]
  have hneg : decide (num < 0) = signOf w := by
    have hu' : (0:Int) < unitsPerOne := by exact_mod_cast hu
    have hdd : (0:Int) < den := by exact_mod_cast hd'
    have hm : 0 ≤ (magOf w : Int) := by positivity
    cases hs : signOf w with
    | true =>
      have : scaled w = -(magOf w : Int) := by simp [scaled, hs]
      rw [this] at h
      simp only [decide_eq_true_eq]
      by_contra hc
      have : 0 < num := by omega
      have : 0 < num * (unitsPerOne : Int) := by positivity
      nlinarith
    | false =>
      have : scaled w = (magOf w : Int) := by simp [scaled, hs]
      rw [this] at h
      simp only [decide_eq_false_iff_not, not_lt]
      by_contra hc
      have : num * (unitsPerOne : Int) < 0 := by nlinarith
      nlinarith
  rw [hneg, packWord_fields]

end Sys2Proof.Machine
end

