-- ==== Sys2Proof/Laws/Step.lean ====
section
/-! SUPPORT. Once for every later proof: what each command answers, what a transaction does by the kind of its register,
and the cases of a step. -/

namespace Sys2Proof.Machine

/-! ## What the commands that call a parameter answer, on any platform -/

theorem execOn_sincos (p : Platform) (s : State) :
    execOn p .sincos s = .next (putAngle (p.sincos s.block.theta) s) := rfl

theorem execOn_park (p : Platform) (s : State) :
    execOn p .park s = .next (exchangeFilters p
      (parkQ s.block.curA s.block.curB (p.sincos s.block.theta).1 (p.sincos s.block.theta).2)
      (parkD s.block.curA s.block.curB (p.sincos s.block.theta).1 (p.sincos s.block.theta).2)
      (putAngle (p.sincos s.block.theta) s)) := rfl

theorem execOn_updcur (p : Platform) (s : State) :
    execOn p .updcur s = .next (exchangeFilters p
      (parkQ s.block.curU (clarkeB s.block.curU s.block.curV) (p.sincos s.block.theta).1 (p.sincos s.block.theta).2)
      (parkD s.block.curU (clarkeB s.block.curU s.block.curV) (p.sincos s.block.theta).1 (p.sincos s.block.theta).2)
      (putAngle (p.sincos s.block.theta)
        (putStationary s.block.curU (clarkeB s.block.curU s.block.curV) s))) := rfl

theorem execOn_ipark (p : Platform) (s : State) :
    execOn p .ipark s = .next (putVoltage
      (iparkA (headroom s.block.volD) (headroom s.block.volQ) (p.sincos s.block.theta).1 (p.sincos s.block.theta).2)
      (iparkB (headroom s.block.volD) (headroom s.block.volQ) (p.sincos s.block.theta).1 (p.sincos s.block.theta).2)
      (putAngle (p.sincos s.block.theta) s)) := rfl

/-- `SYNTH` leaves what `ICLARKE` makes of the state `IPARK` leaves. -/
theorem execOn_synth (p : Platform) {s t : State} (h : execOn p .ipark s = .next t) :
    execOn p .synth s = .next (emitDuty (dutyOfU t.block.volA) (dutyOfV t.block.volA t.block.volB)
      (dutyOfW (dutyOfU t.block.volA) (dutyOfV t.block.volA t.block.volB)) t) := by
  cases h
  rfl

/-! ## What each command answers on this hardware, over the shared operations -/

theorem exec_nop (s : State) : exec .nop s = .next s := rfl

theorem exec_sincos (s : State) : exec .sincos s = .next (putAngle (sincosUnit s.block.theta) s) := rfl

theorem exec_clarke (s : State) :
    exec .clarke s = .next (putStationary s.block.curU (clarkeB s.block.curU s.block.curV) s) := rfl

theorem exec_park (s : State) :
    exec .park s = .next (exchangeFilters hardware
      (parkQ s.block.curA s.block.curB (sincosUnit s.block.theta).1 (sincosUnit s.block.theta).2)
      (parkD s.block.curA s.block.curB (sincosUnit s.block.theta).1 (sincosUnit s.block.theta).2)
      (putAngle (sincosUnit s.block.theta) s)) := rfl

theorem exec_updcur (s : State) :
    exec .updcur s = .next (exchangeFilters hardware
      (parkQ s.block.curU (clarkeB s.block.curU s.block.curV) (sincosUnit s.block.theta).1 (sincosUnit s.block.theta).2)
      (parkD s.block.curU (clarkeB s.block.curU s.block.curV) (sincosUnit s.block.theta).1 (sincosUnit s.block.theta).2)
      (putAngle (sincosUnit s.block.theta)
        (putStationary s.block.curU (clarkeB s.block.curU s.block.curV) s))) := rfl

theorem exec_ipark (s : State) :
    exec .ipark s = .next (putVoltage
      (iparkA (headroom s.block.volD) (headroom s.block.volQ) (sincosUnit s.block.theta).1 (sincosUnit s.block.theta).2)
      (iparkB (headroom s.block.volD) (headroom s.block.volQ) (sincosUnit s.block.theta).1 (sincosUnit s.block.theta).2)
      (putAngle (sincosUnit s.block.theta) s)) := rfl

theorem exec_iclarke (s : State) :
    exec .iclarke s = .next (emitDuty (dutyOfU s.block.volA) (dutyOfV s.block.volA s.block.volB)
      (dutyOfW (dutyOfU s.block.volA) (dutyOfV s.block.volA s.block.volB)) s) := rfl

theorem exec_pidc (i : Fin 4) (s : State) :
    exec (.pidc i) s = .next (putBank i (pidCompute (s.block.bank i)) s) := rfl

/-- A call computes by the law then selected. -/
theorem pidCompute_position {b : Bank} (h : b.law = .position) : pidCompute b = positionCall b := by
  simp [pidCompute, h]

/-- The same for the other law. -/
theorem pidCompute_delta {b : Bank} (h : b.law = .delta) : pidCompute b = deltaCall b := by
  simp [pidCompute, h]

/-- What a call leaves of a bank's host-written registers: all of them. -/
theorem pidCompute_operands (b : Bank) :
    (pidCompute b).law = b.law ∧ (pidCompute b).target = b.target ∧ (pidCompute b).meas = b.meas ∧
      (pidCompute b).kp = b.kp ∧ (pidCompute b).ki = b.ki ∧ (pidCompute b).kd = b.kd ∧
      (pidCompute b).intHi = b.intHi ∧ (pidCompute b).intLo = b.intLo ∧
      (pidCompute b).outHi = b.outHi ∧ (pidCompute b).outLo = b.outLo := by
  cases h : b.law <;> simp [pidCompute, h, positionCall, deltaCall]

/-! ## Transactions -/

/-- A read changes no register but the flag of a reserved index, and adds its own event. -/
theorem acceptRead_cases (i : RegIndex) (s : State) :
    acceptRead i s = record (.read i (readWord i s)) s ∨
      (Reg.ofIndex i = none ∧ acceptRead i s = raiseIllAcc (record (.read i (readWord i s)) s)) := by
  unfold acceptRead
  cases h : Reg.ofIndex i <;> simp

/-- The five things a write can do, whatever the commands do. -/
theorem writeRegBy_cases {run : Instr → State → Host.Outcome State Fault Refusal} {i : RegIndex} {w : Word} {s t : State}
    (h : writeRegBy run i w s = .next t) :
    ((Reg.ofIndex i = none ∨ ∃ r, Reg.ofIndex i = some r ∧ r.access = .ro) ∧ t = raiseIllAcc s) ∨
      (∃ r, Reg.ofIndex i = some r ∧ r.access = .rw ∧ t = { s with block := s.block.storeReg r w }) ∨
      (∃ r, Reg.ofIndex i = some r ∧ r.access = .rw1c ∧ t = { s with block := s.block.clearFlags w }) ∨
      (∃ r, Reg.ofIndex i = some r ∧ r.access = .wo ∧ (∃ e, decode w = .error e) ∧ t = raiseIllCmd s) ∨
      (∃ r c, Reg.ofIndex i = some r ∧ r.access = .wo ∧ decode w = .ok c ∧ run c s = .next t) := by
  unfold writeRegBy at h
  cases hr : Reg.ofIndex i with
  | none =>
    simp only [hr] at h
    injection h with h
    exact .inl ⟨.inl rfl, h.symm⟩
  | some r =>
    cases ha : r.access <;> simp only [hr, ha] at h
    · injection h with h
      exact .inl ⟨.inr ⟨r, rfl, ha⟩, h.symm⟩
    · unfold commandBy at h
      cases hd : decode w with
      | error e =>
        simp only [hd] at h
        injection h with h
        exact .inr (.inr (.inr (.inl ⟨r, rfl, ha, ⟨e, rfl⟩, h.symm⟩)))
      | ok c =>
        simp only [hd] at h
        exact .inr (.inr (.inr (.inr ⟨r, c, rfl, ha, rfl, h⟩)))
    · injection h with h
      exact .inr (.inl ⟨r, rfl, ha, h.symm⟩)
    · injection h with h
      exact .inr (.inr (.inl ⟨r, rfl, ha, h.symm⟩))

/-- The five things a write can do on this hardware. -/
theorem writeReg_cases {i : RegIndex} {w : Word} {s t : State} (h : writeReg i w s = .next t) :
    ((Reg.ofIndex i = none ∨ ∃ r, Reg.ofIndex i = some r ∧ r.access = .ro) ∧ t = raiseIllAcc s) ∨
      (∃ r, Reg.ofIndex i = some r ∧ r.access = .rw ∧ t = { s with block := s.block.storeReg r w }) ∨
      (∃ r, Reg.ofIndex i = some r ∧ r.access = .rw1c ∧ t = { s with block := s.block.clearFlags w }) ∨
      (∃ r, Reg.ofIndex i = some r ∧ r.access = .wo ∧ (∃ e, decode w = .error e) ∧ t = raiseIllCmd s) ∨
      (∃ r c, Reg.ofIndex i = some r ∧ r.access = .wo ∧ decode w = .ok c ∧ exec c s = .next t) :=
  writeRegBy_cases h

/-- The cases of a step, by the first pending input, whatever the commands do. -/
theorem acceptNextBy_cases {run : Instr → State → Host.Outcome State Fault Refusal} {s t : State}
    (h : acceptNextBy run s = .next t) :
    (s.pending = [] ∧ t = s) ∨
      (∃ rest, s.pending = .reset :: rest ∧ t = resetBlock (withPending rest s)) ∨
      (∃ i rest, s.pending = .read i :: rest ∧ t = acceptRead i (withPending rest s)) ∨
      (∃ i w rest, s.pending = .write i w :: rest ∧
        writeRegBy run i w (record (.write i w) (withPending rest s)) = .next t) := by
  unfold acceptNextBy at h
  cases hp : s.pending with
  | nil =>
    simp only [hp] at h
    injection h with h
    exact .inl ⟨rfl, h.symm⟩
  | cons x rest =>
    simp only [hp] at h
    cases x with
    | read i =>
      simp only [acceptBy] at h
      injection h with h
      exact .inr (.inr (.inl ⟨i, rest, rfl, h.symm⟩))
    | write i w => exact .inr (.inr (.inr ⟨i, w, rest, rfl, h⟩))
    | reset =>
      simp only [acceptBy] at h
      injection h with h
      exact .inr (.inl ⟨rest, rfl, h.symm⟩)

/-- The cases of a step of this hardware. -/
theorem step_cases {s t : State} (h : step s = .next t) :
    (s.pending = [] ∧ t = s) ∨
      (∃ rest, s.pending = .reset :: rest ∧ t = resetBlock (withPending rest s)) ∨
      (∃ i rest, s.pending = .read i :: rest ∧ t = acceptRead i (withPending rest s)) ∨
      (∃ i w rest, s.pending = .write i w :: rest ∧
        writeReg i w (record (.write i w) (withPending rest s)) = .next t) :=
  acceptNextBy_cases h

/-- The cases of a step on a platform. -/
theorem stepOn_cases {p : Platform} {s t : State} (h : stepOn p s = .next t) :
    (s.pending = [] ∧ t = s) ∨
      (∃ rest, s.pending = .reset :: rest ∧ t = resetBlock (withPending rest s)) ∨
      (∃ i rest, s.pending = .read i :: rest ∧ t = acceptRead i (withPending rest s)) ∨
      (∃ i w rest, s.pending = .write i w :: rest ∧
        writeRegBy (execOn p) i w (record (.write i w) (withPending rest s)) = .next t) :=
  acceptNextBy_cases h

end Sys2Proof.Machine
end

