-- ==== Sys2Proof/Tests/Slice0.lean ====
section
/-! SUPPORT. Tests with expected results from spec/ (the vectors of 95_test_vectors.md, the words of 30_encoding.md R104), the
smoke test of well-formedness, and for every statement with hypotheses a state and operands that meet them. -/

namespace Sys2Proof.Tests

open Sys2Proof.Machine

/-! ## Helpers -/

/-- What a function reads from a next state. -/
def fieldAfter {α : Type} (o : Host.Outcome State Fault Refusal) (f : State → α) : Option α :=
  match o with
  | .next t => some (f t)
  | .fault _ => none
  | .refused _ => none

/-- The state after reset with some registers of the block as given. -/
def withBlock (b : Block) : State := { State.reset with block := b }

/-- The state after reset with one pending input. -/
def withInput (x : Input) : State := { State.reset with pending := [x] }

/-- The state after reset with the identity filter on both ports, as the vectors take them. -/
def withIdentity (b : Block) : State := { State.reset with block := b, filtQ := .identity, filtD := .identity }

/-- A bank in the place of bank 0. -/
def withBank0 (v : Bank) : State := withBlock (Block.reset.setBank 0 v)

/-! ## Well-formedness: each check refuses an ill-formed term (20_memory.md R73) -/

theorem test_wf_accepts_aligned_word : BusAccess.wf ⟨0x3FC, 4, none⟩ = true := by decide

theorem test_wf_refuses_halfword : BusAccess.wf ⟨0x10, 2, none⟩ = false := by decide

theorem test_wf_refuses_write_of_three_bytes : BusAccess.wf ⟨0x10, 4, some [1#8, 2#8, 3#8]⟩ = false := by decide

theorem test_wf_refuses_misaligned : BusAccess.wf ⟨0x11, 4, none⟩ = false := by decide

theorem test_wf_refuses_beyond_range : BusAccess.wf ⟨0x400, 4, none⟩ = false := by decide

/-- A command has no ill-formed term: the range of `PIDC`'s index is its type's. -/
theorem test_wf_pidc_at_both_ends : Instr.wf (.pidc 0) = true ∧ Instr.wf (.pidc 3) = true := by decide

/-! ## Decoding: words written out from 30_encoding.md R101 and R104 -/

theorem test_decode_nop : decodeTableWord 32 0b00000000000000000000000000000000 = some .nop := by decide

theorem test_decode_sincos : decodeTableWord 32 0b00000000000000000000000000000001 = some .sincos := by decide

theorem test_decode_clarke : decodeTableWord 32 0b00000000000000000000000000000010 = some .clarke := by decide

theorem test_decode_park : decodeTableWord 32 0b00000000000000000000000000000011 = some .park := by decide

theorem test_decode_updcur : decodeTableWord 32 0b00000000000000000000000000000100 = some .updcur := by decide

theorem test_decode_ipark : decodeTableWord 32 0b00000000000000000000000000000101 = some .ipark := by decide

theorem test_decode_iclarke : decodeTableWord 32 0b00000000000000000000000000000110 = some .iclarke := by decide

theorem test_decode_synth : decodeTableWord 32 0b00000000000000000000000000000111 = some .synth := by decide

theorem test_decode_pidc_1 : decodeTableWord 32 0b00000000000000000000000100010000 = some (.pidc 1) := by decide

theorem test_decode_pidc_3 : decodeTableWord 32 0b00000000000000000000001100010000 = some (.pidc 3) := by decide

/-- V-SYS-2 to V-SYS-8: illegal words, by the clause of R106 that rejects each. -/
theorem test_decode_illegal :
    decodeTableWord 32 0x00000008 = none ∧ decodeTableWord 32 0x00000101 = none ∧
      decodeTableWord 32 0x00000410 = none ∧ decodeTableWord 32 0xFFFFFFFF = none ∧
      decodeTableWord 32 0x00000011 = none ∧ decodeTableWord 32 0x80000007 = none := by decide

/-! ## One step each: the vectors of 95_test_vectors.md -/

/-- V-SYS-1. -/
theorem test_nop : fieldAfter (step (State.reset.withFetchWord 32 0)) (·.block) = some State.reset.block := by
  decide +kernel

/-- V-SC-10, worked in 44_sincos.md R222. -/
theorem test_sincos_one :
    fieldAfter (exec .sincos (withBlock { Block.reset with theta := 0x3F800000#32 })) (fun t => (t.block.sin, t.block.cos)) =
      some (0x3F576AA5#32, 0x3F0A5140#32) := by decide +kernel

/-- V-SC-14: the third quadrant. -/
theorem test_sincos_four :
    fieldAfter (exec .sincos (withBlock { Block.reset with theta := 0x40800000#32 })) (fun t => (t.block.sin, t.block.cos)) =
      some (0xBF41BDCD#32, 0xBF275532#32) := by decide +kernel

/-- V-CLK-8. -/
theorem test_clarke :
    fieldAfter (exec .clarke (withBlock { Block.reset with curU := 0x42C80000#32, curV := 0xC2200000#32 }))
      (fun t => (t.block.curA, t.block.curB)) = some (0x42C80000#32, 0x4138C089#32) := by decide +kernel

/-- V-CLK-11: a NaN payload is copied into `CUR_A` and not into `CUR_B`. -/
theorem test_clarke_nan :
    fieldAfter (exec .clarke (withBlock { Block.reset with curU := 0x7FC12345#32, curV := 0x3F800000#32 }))
      (fun t => (t.block.curA, t.block.curB)) = some (0x7FC12345#32, 0x7FC00000#32) := by decide +kernel

/-- V-PRK-4, with its two exchanges in order. -/
theorem test_park :
    fieldAfter (exec .park (withIdentity
        { Block.reset with curA := 0x3F800000#32, curB := 0x40000000#32, theta := 0x3F800000#32 }))
      (fun t => (t.block.curQ, t.block.curD, t.history)) =
      some (0x3E74DF6C#32, 0x400E49A2#32,
        [.filtQ 0x3E74DF6C#32 0x3E74DF6C#32, .filtD 0x400E49A2#32 0x400E49A2#32]) := by decide +kernel

/-- The first `UPDCUR` of program P4, with the filter HALF on both ports. -/
theorem test_updcur_half :
    fieldAfter (exec .updcur { withBlock
        { Block.reset with theta := 0x3FC90FDB#32, curU := 0x3F800000#32, curV := 0x3F000000#32 } with
        filtQ := .half 0#32, filtD := .half 0#32 })
      (fun t => (t.block.curB, t.block.curQ, t.block.curD, t.filtQ)) =
      some (0x3F93CD3A#32, 0xBF000000#32, 0x3F13CD3A#32, .half 0xBF000000#32) := by decide +kernel

/-- V-UPD-3. -/
theorem test_updcur :
    fieldAfter (exec .updcur (withIdentity
        { Block.reset with curU := 0x3E99999A#32, curV := 0xBF333333#32, theta := 0x40800000#32 }))
      (fun t => (t.block.curQ, t.block.curD)) = some (0x3F24649C#32, 0x3E91AF58#32) := by decide +kernel

/-- V-SYN-7, its first half. -/
theorem test_ipark :
    fieldAfter (exec .ipark (withBlock
        { Block.reset with volD := 0x3F000000#32, volQ := 0xBE800000#32, theta := 0x3F800000#32 }))
      (fun t => (t.block.volA, t.block.volB)) = some (0x3E7390BF#32, 0x3E10CB9A#32) := by decide +kernel

/-- V-ICL-1, with its event. -/
theorem test_iclarke :
    fieldAfter (exec .iclarke (withBlock { Block.reset with volA := 0x3E800000#32, volB := 0xBE800000#32 }))
      (fun t => (t.block.dutyU, t.block.dutyV, t.block.dutyW, t.history)) =
      some (0x3F400000#32, 0x3E224C28#32, 0x3F176CF6#32, [.setDuty 0x3F400000#32 0x3E224C28#32 0x3F176CF6#32]) := by
  decide +kernel

/-- V-SYN-8. -/
theorem test_synth :
    fieldAfter (exec .synth (withBlock
        { Block.reset with volD := 0x3F19999A#32, volQ := 0x3F4CCCCD#32, theta := 0x40A00000#32 }))
      (fun t => (t.block.dutyU, t.block.dutyV, t.block.dutyW)) =
      some (0x3F76C780#32, 0x3DF2FC60#32, 0x3ED5B1E8#32) := by decide +kernel

/-- V-PID-14, step 2: the Position law, rounded at every step. -/
theorem test_pidc_position :
    fieldAfter (exec (.pidc 0) (withBank0 { Bank.reset with
        kp := 0x3DCCCCCD#32, ki := 0x3DCCCCCD#32, kd := 0x3DCCCCCD#32, target := 0x3E99999A#32, meas := 0x3DCCCCCD#32,
        err1 := 0x3E4CCCCE#32, integ := 0x3E4CCCCE#32 }))
      (fun t => (t.block.pid.bank0.integ, t.block.pid.bank0.out)) = some (0x3ECCCCCE#32, 0x3D75C290#32) := by
  decide +kernel

/-- V-PID-5, step 3: the Delta law with both previous errors. -/
theorem test_pidc_delta :
    fieldAfter (exec (.pidc 0) (withBank0 { Bank.reset with
        law := .delta, kp := 0x3F800000#32, ki := 0x3F000000#32, kd := 0x3E800000#32, target := 0x3F800000#32,
        meas := 0x3F400000#32, err1 := 0x3F000000#32, err2 := 0x3F800000#32, out := 0x3F900000#32 }))
      (fun t => (t.block.pid.bank0.err1, t.block.pid.bank0.err2, t.block.pid.bank0.out)) =
      some (0x3E800000#32, 0x3F000000#32, 0x3F880000#32) := by decide +kernel

/-! ## Port transactions -/

/-- V-SYS-10 and V-SYS-15: reserved indices read 0 and set `ILLACC`. -/
theorem test_reserved_read :
    fieldAfter (step (withInput (.read 0x03#8))) (fun t => (t.block.illAcc, t.history)) =
      some (true, [.read 0x03#8 0#32]) ∧
    fieldAfter (step (withInput (.read 0xFF#8))) (fun t => (t.block.illAcc, t.history)) =
      some (true, [.read 0xFF#8 0#32]) := by decide +kernel

/-- V-SYS-21: `PID3.PCTRL` keeps only `LAW`. -/
theorem test_pctrl :
    fieldAfter (step (withInput (.write 0x70#8 0xFFFFFFFF#32))) (readWord 0x70#8) = some 1#32 := by decide +kernel

/-- V-SYS-17: both flags set, a 1 written to bit 0 clears `ILLCMD` and keeps `ILLACC`. -/
theorem test_status_clear :
    fieldAfter (step { withInput (.write 0x02#8 0x00000001#32) with
        block := { Block.reset with illCmd := true, illAcc := true } }) (readWord 0x02#8) = some 2#32 := by decide +kernel

/-- The bytes of a bus write, the lowest address first (20_memory.md R72). -/
theorem test_bus_write :
    busTransaction ⟨0x10, 4, some [0x78#8, 0x56#8, 0x34#8, 0x12#8]⟩ = some (.write 0x04#8 0x12345678#32) := by decide +kernel

/-- 30_encoding.md R109 and R110: `compute 2, f:1` as its three transactions. -/
theorem test_compute_pseudo :
    compute 2 (nearestWord 1 1) =
      [.write 0x69#8 0x3F800000#32, .write 0x01#8 0x00000210#32, .read 0x6D#8] := by decide +kernel

/-! ## Witnesses: the hypotheses of each statement can be met -/

theorem witness_DecodeInvertsEncodeOnAllWords : decode 0x00000310#32 = .ok (.pidc 3) := rfl

theorem witness_DecodingFollowsFieldsAndRows :
    decode 0x00000007#32 = .ok .synth ∧ decode 0x00000008#32 = .error (.undefinedOpcode 0x08#8) ∧
      (0x00000310#32 : Word) &&& (Instr.pidc 0).row.mask = (Instr.pidc 0).row.pattern :=
  ⟨rfl, rfl, by decide⟩

theorem witness_StepRunsTheDecodedCommand :
    (withInput (.write 0x01#8 0x00000210#32)).pending = .write 0x01#8 0x00000210#32 :: [] ∧
      decode 0x00000210#32 = .ok (.pidc 2) := ⟨rfl, rfl⟩

theorem witness_IllegalWordSetsOnlyIllcmd :
    (withInput (.write 0x01#8 0x00000410#32)).pending = .write 0x01#8 0x00000410#32 :: [] ∧
      decode 0x00000410#32 = .error .nonzeroAboveIdx := ⟨rfl, rfl⟩

/-- The filters and the angle unit answer some pair from any state, so the equations that name their answers can be met. -/
theorem witness_ParkRotatesAndFilters :
    ∃ (sn cs qraw draw yq yd : Word) (fq fd : FilterState),
      sincosRef State.reset.block.theta = (sn, cs) ∧
      qraw = fsub (fmul State.reset.block.curB cs) (fmul State.reset.block.curA sn) ∧
      draw = fadd (fmul State.reset.block.curB sn) (fmul State.reset.block.curA cs) ∧
      State.reset.filtQ.sample Config.filtQ qraw = (fq, yq) ∧ State.reset.filtD.sample Config.filtD draw = (fd, yd) :=
  ⟨_, _, _, _, _, _, _, _, rfl, rfl, rfl, rfl, rfl⟩

theorem witness_UpdcurTransformsTheCurrents :
    ∃ (b sn cs qraw draw yq yd : Word) (fq fd : FilterState),
      b = fdiv (fadd State.reset.block.curU (fmul 0x40000000#32 State.reset.block.curV)) 0x3FDDB3D7#32 ∧
      sincosRef State.reset.block.theta = (sn, cs) ∧
      qraw = fsub (fmul b cs) (fmul State.reset.block.curU sn) ∧
      draw = fadd (fmul b sn) (fmul State.reset.block.curU cs) ∧
      State.reset.filtQ.sample Config.filtQ qraw = (fq, yq) ∧ State.reset.filtD.sample Config.filtD draw = (fd, yd) :=
  ⟨_, _, _, _, _, _, _, _, _, rfl, rfl, rfl, rfl, rfl, rfl⟩

theorem witness_IparkWritesTheStationaryVoltages :
    ∃ sn cs d q : Word, sincosRef State.reset.block.theta = (sn, cs) ∧
      d = fmul State.reset.block.volD 0x3F7D70A4#32 ∧ q = fmul State.reset.block.volQ 0x3F7D70A4#32 :=
  ⟨_, _, _, _, rfl, rfl, rfl⟩

theorem witness_IclarkeWritesAndEmitsTheDuties :
    ∃ uu uv uw : Word, uu = fadd State.reset.block.volA 0x3F000000#32 ∧
      uv = fadd (fadd (fdiv (fneg State.reset.block.volA) 0x40000000#32)
        (fdiv (fmul State.reset.block.volB 0x3FDDB3D7#32) 0x40000000#32)) 0x3F000000#32 ∧
      uw = fsub (fsub 0x3FC00000#32 uu) uv := ⟨_, _, _, rfl, rfl, rfl⟩

theorem witness_SynthWritesAndEmitsTheDuties :
    ∃ sn cs d q ua ub uu uv uw : Word, sincosRef State.reset.block.theta = (sn, cs) ∧
      d = fmul State.reset.block.volD 0x3F7D70A4#32 ∧ q = fmul State.reset.block.volQ 0x3F7D70A4#32 ∧
      ua = fdiv (fadd (fmul (fneg q) sn) (fmul d cs)) 0x40000000#32 ∧
      ub = fdiv (fadd (fmul q cs) (fmul d sn)) 0x40000000#32 ∧ uu = fadd ua 0x3F000000#32 ∧
      uv = fadd (fadd (fdiv (fneg ua) 0x40000000#32) (fdiv (fmul ub 0x3FDDB3D7#32) 0x40000000#32)) 0x3F000000#32 ∧
      uw = fsub (fsub 0x3FC00000#32 uu) uv :=
  ⟨_, _, _, _, _, _, _, _, _, rfl, rfl, rfl, rfl, rfl, rfl, rfl, rfl⟩

theorem witness_PidcPositionLaw :
    ∃ (b : Bank) (e a g o : Word), State.reset.block.bank 3 = b ∧ b.law = .position ∧ e = fsub b.target b.meas ∧
      a = fadd b.integ e ∧
      g = (if isNaN b.intLo = false ∧ isNaN b.intHi = false then
          if fgt a b.intHi = true then b.intHi else if flt a b.intLo = true then b.intLo else a
        else a) ∧
      o = fadd (fadd (fmul b.kp e) (fmul b.ki g)) (fmul b.kd (fsub e b.err1)) :=
  ⟨_, _, _, _, _, rfl, rfl, rfl, rfl, rfl, rfl⟩

theorem witness_PidcDeltaLaw :
    ∃ (b : Bank) (e o : Word), (withBank0 { Bank.reset with law := .delta }).block.bank 0 = b ∧ b.law = .delta ∧
      e = fsub b.target b.meas ∧
      o = fadd b.out (fadd (fadd (fmul b.kp (fsub e b.err1)) (fmul b.ki e))
        (fmul b.kd (fadd (fsub e (fmul 0x40000000#32 b.err1)) b.err2))) :=
  ⟨_, _, _, rfl, rfl, rfl, rfl⟩

theorem witness_EveryStepAnswersANextState : State.reset.pending = [] := rfl

theorem witness_UpdcurTransformsTheCurrents_equivalence : ∃ t, exec .clarke State.reset = .next t := ⟨_, rfl⟩

theorem witness_SynthWritesAndEmitsTheDuties_equivalence : ∃ t, exec .ipark State.reset = .next t := ⟨_, rfl⟩

/-- Each command of the list, with a register beside its destinations. -/
theorem witness_RegisterOnlyCommandsFrame :
    (∃ t, exec .nop State.reset = .next t) ∧
    (∃ t, exec .sincos State.reset = .next t ∧ Reg.theta ≠ .sin ∧ Reg.theta ≠ .cos) ∧
    (∃ t, exec .clarke State.reset = .next t ∧ Reg.curQ ≠ .curA ∧ Reg.curQ ≠ .curB) ∧
    (∃ t, exec .ipark State.reset = .next t ∧ Reg.volQ ≠ .sin ∧ Reg.volQ ≠ .cos ∧ Reg.volQ ≠ .volA ∧ Reg.volQ ≠ .volB) :=
  ⟨⟨_, rfl⟩, ⟨_, rfl, by decide, by decide⟩, ⟨_, rfl, by decide, by decide⟩,
    ⟨_, rfl, by decide, by decide, by decide, by decide⟩⟩

theorem witness_OutputCommandsFrame :
    (∃ t, exec .park State.reset = .next t ∧ Reg.curB ∉ [Reg.sin, .cos, .curQ, .curD]) ∧
    (∃ t, exec .updcur State.reset = .next t ∧ Reg.curW ∉ [Reg.sin, .cos, .curQ, .curD, .curA, .curB]) ∧
    (∃ t, exec .iclarke State.reset = .next t ∧ Reg.volB ∉ [Reg.dutyU, .dutyV, .dutyW]) ∧
    (∃ t, exec .synth State.reset = .next t ∧ Reg.volQ ∉ [Reg.sin, .cos, .volA, .volB, .dutyU, .dutyV, .dutyW]) :=
  ⟨⟨_, rfl, by decide⟩, ⟨_, rfl, by decide⟩, ⟨_, rfl, by decide⟩, ⟨_, rfl, by decide⟩⟩

theorem witness_PidcFrame :
    (∃ t, exec (.pidc 0) State.reset = .next t ∧ (State.reset.block.bank 0).law = .position ∧
      Reg.bank 0 .err2 ∉ [Reg.bank 0 .err1, .bank 0 .out, .bank 0 .integ]) ∧
    (∃ t, exec (.pidc 0) (withBank0 { Bank.reset with law := .delta }) = .next t ∧
      ((withBank0 { Bank.reset with law := .delta }).block.bank 0).law = .delta ∧
      Reg.bank 0 .integ ∉ [Reg.bank 0 .err1, .bank 0 .out, .bank 0 .err2]) :=
  ⟨⟨_, rfl, rfl, by decide⟩, ⟨_, rfl, rfl, by decide⟩⟩

theorem witness_NoCommandWritesAHostRegister :
    hostOnlyReg .theta ∧ hostOnlyReg (.bank 3 .meas) ∧ ∃ t, exec (.pidc 3) State.reset = .next t :=
  ⟨.inl (by decide), .inr ⟨3, .meas, by decide, rfl⟩, _, rfl⟩

theorem witness_NoCommandReadsOrWritesCurW : ∃ t, exec .updcur State.reset = .next t := ⟨_, rfl⟩

theorem witness_NoCommandReadsSinOrCos :
    (∃ t, exec .synth State.reset = .next t) ∧ Instr.synth ∈ [Instr.sincos, .park, .updcur, .ipark, .synth] ∧
      (∃ t, exec .iclarke State.reset = .next t) ∧ Instr.iclarke ∉ [Instr.sincos, .park, .updcur, .ipark, .synth] :=
  ⟨⟨_, rfl⟩, by decide, ⟨_, rfl⟩, by decide⟩

/-- Two banks of equal contents at different places, and the ends of the index ranges of banks 0 and 3. -/
theorem witness_BanksAreIndependent :
    State.reset.block.bank 0 = State.reset.block.bank 3 ∧ (∃ t, exec (.pidc 0) State.reset = .next t) ∧
      (∃ t, exec (.pidc 3) State.reset = .next t) ∧ (1 : Fin 4) ≠ 0 ∧
      (∃ t, writeReg 0x40#8 1#32 State.reset = .next t) ∧ (∃ t, writeReg 0x4F#8 1#32 State.reset = .next t) ∧
      (∃ t, writeReg 0x70#8 1#32 State.reset = .next t) ∧ (∃ t, writeReg 0x7F#8 1#32 State.reset = .next t) :=
  ⟨rfl, ⟨_, rfl⟩, ⟨_, rfl⟩, by decide, ⟨_, rfl⟩, ⟨_, rfl⟩, ⟨_, rfl⟩, ⟨_, rfl⟩⟩

/-- A step for each kind of first input, and a command, from states where they apply. -/
theorem witness_StatusFlagsInFull :
    (∃ t, step State.reset = .next t) ∧ (∃ t, step (withInput .reset) = .next t) ∧
      (∃ t, step (withInput (.read 0x03#8)) = .next t) ∧ (∃ t, step (withInput (.write 0x01#8 8#32)) = .next t) ∧
      (∃ t, step (withInput (.write 0x02#8 3#32)) = .next t) ∧ (∃ t, step (withInput (.write 0x00#8 0#32)) = .next t) ∧
      (withInput (.read 0x02#8)).pending = .read 0x02#8 :: [] ∧
      (withInput (.write 0x02#8 3#32)).pending = .write 0x02#8 3#32 :: [] ∧
      (∃ t, exec .park State.reset = .next t) :=
  ⟨⟨_, rfl⟩, ⟨_, rfl⟩, ⟨_, rfl⟩, ⟨_, rfl⟩, ⟨_, rfl⟩, ⟨_, rfl⟩, rfl, rfl, ⟨_, rfl⟩⟩

theorem witness_OnlyTheseCommandsReachTheCollaborators :
    (∃ t, exec .park State.reset = .next t) ∧ (∃ t, exec .updcur State.reset = .next t) ∧
      (∃ t, exec .iclarke State.reset = .next t) ∧ (∃ t, exec .synth State.reset = .next t) ∧
      (∃ t, exec (.pidc 0) State.reset = .next t) :=
  ⟨⟨_, rfl⟩, ⟨_, rfl⟩, ⟨_, rfl⟩, ⟨_, rfl⟩, ⟨_, rfl⟩⟩

/-- A write to another bank's index meets the first clause, bank 0's own `PIDC` under each law the other two. -/
theorem witness_PidStateChangesOnlyByItsCommand :
    (∃ t, step (withInput (.write 0x01#8 (encode (.pidc 1)))) = .next t) ∧
    encode (.pidc 1) ≠ encode (.pidc 0) ∧
    (∃ t, step (withInput (.write 0x01#8 (encode (.pidc 0)))) = .next t) ∧
    ((withInput (.write 0x01#8 (encode (.pidc 0)))).block.bank 0).law = .position ∧
    (∃ t, step { withInput (.write 0x01#8 (encode (.pidc 0))) with
      block := Block.reset.setBank 0 { Bank.reset with law := .delta } } = .next t) :=
  ⟨⟨_, rfl⟩, by decide, ⟨_, rfl⟩, rfl, ⟨_, rfl⟩⟩

/-- The first and last mapped and reserved indices. -/
theorem witness_RegisterMapIsExact :
    Reg.ofIndex 0x00#8 = some .blkid ∧ Reg.ofIndex 0x7D#8 = some (.bank 3 .out) ∧
      Reg.ofIndex 0x40#8 = some (.bank 0 .pctrl) ∧ reservedIndex 0x7E#8 = true ∧ reservedIndex 0x80#8 = true := by decide

theorem witness_ReadsHaveNoSideEffect :
    (withInput (.read 0x16#8)).pending = .read 0x16#8 :: [] ∧ 0x16#8 = Reg.dutyW.index ∧
      (withInput (.read 0x17#8)).pending = .read 0x17#8 :: [] ∧ reservedIndex 0x17#8 = true ∧
      reservedIndex 0x3F#8 = true := by decide

/-- Both events of a read and of a write, at the ends of the reserved ranges and at read-only registers. -/
theorem witness_IllaccInFull :
    reservedIndex 0x03#8 = true ∧ reservedIndex 0x4E#8 = true ∧ reservedIndex 0xFF#8 = true ∧
      readOnlyIndex 0x00#8 = true ∧ readOnlyIndex 0x7D#8 = true ∧
      (withInput (.read 0xFF#8)).pending = .read 0xFF#8 :: [] ∧
      (withInput (.write 0x7D#8 1#32)).pending = .write 0x7D#8 1#32 :: [] ∧
      (withInput (.write 0x7D#8 1#32)).block.illAcc = false ∧
      (fieldAfter (step (withInput (.write 0x7D#8 1#32))) (·.block.illAcc)) = some true := by decide +kernel

theorem witness_WritesStoreTheWord :
    (withInput (.write Reg.theta.index 0x7F800001#32)).pending = .write Reg.theta.index 0x7F800001#32 :: [] ∧
      hostOnlyReg .theta ∧ (∀ j, Reg.theta ≠ .bank j .pctrl) ∧
      hostOnlyReg (.bank 3 .meas) ∧ (∀ j, Reg.bank 3 .meas ≠ .bank j .pctrl) ∧
      Reg.volB ∈ [Reg.curA, .curB, .volA, .volB] ∧ (∀ j, Reg.volB ≠ .bank j .pctrl) :=
  ⟨rfl, .inl (by decide), by decide, .inr ⟨3, .meas, by decide, rfl⟩, by decide, by decide, by decide⟩

theorem witness_SetTargetStoresOnlyTheTarget :
    (0x71#8 : RegIndex).toNat = 0x41 + 0x10 * (3 : Fin 4).val ∧
      (withInput (.write 0x71#8 1#32)).pending = .write 0x71#8 1#32 :: [] ∧
      ∃ t u, step (withInput (.write 0x71#8 1#32)) = .next t ∧ exec (.pidc 3) t = .next u := ⟨rfl, rfl, _, _, rfl, rfl⟩

theorem witness_PctrlKeepsOnlyTheLaw :
    (withInput (.write (Reg.bank 3 .pctrl).index 0xFFFFFFFE#32)).pending =
      .write (Reg.bank 3 .pctrl).index 0xFFFFFFFE#32 :: [] ∧
    ∃ t, step (withInput (.write (Reg.bank 3 .pctrl).index 0xFFFFFFFE#32)) = .next t := ⟨rfl, _, rfl⟩

/-- An access wrong in its size alone, in its alignment alone, in its range alone. -/
theorem witness_BusAccessesBecomeTransactions :
    (2 ≠ 4 ∧ 0x10 % 4 = 0) ∧ (0x12 % 4 ≠ 0 ∧ 0x12 < 0x400) ∧ (0x400 ≤ 0x400 ∧ 0x400 % 4 = 0) := by decide

theorem witness_ResetInputResetsOnlyTheBlock : (withInput .reset).pending = .reset :: [] := rfl

/-- A state that meets the invariant, with a pending command. -/
theorem witness_EveryStepKeepsTheInvariant :
    (withInput (.write 0x01#8 0x00000007#32)).Inv ∧ ∃ t, step (withInput (.write 0x01#8 0x00000007#32)) = .next t := by
  refine ⟨⟨.inl ⟨rfl, rfl⟩, .inl ⟨rfl, rfl⟩, .inl ⟨rfl, rfl, rfl⟩, ?_, ?_, ?_⟩, _, rfl⟩
  · intro seen h; cases h; rfl
  · intro seen h; cases h; rfl
  · intro i
    have e : (withInput (.write 0x01#8 0x00000007#32)).block.bank i = Bank.reset := Block.reset_bank i
    rw [e]
    constructor <;> intro h <;> exact absurd h (by decide)

/-- One third rounds to a finite word, and 2^24 + 1 lies halfway between two words, the answer and another. -/
theorem witness_RoundingIsNearestTiesToEven :
    isFinite (round32 1 3 false) = true ∧ round32 (2 ^ 24 + 1) 1 false = 0x4B800000#32 ∧
      |val 0x4B800000#32 - (2 ^ 24 + 1)| = |val 0x4B800001#32 - (2 ^ 24 + 1)| ∧
      val 0x4B800001#32 ≠ val 0x4B800000#32 := by
  have h0 : scaled 0x4B800000#32 = 2 ^ 24 * 2 ^ 149 := by decide +kernel
  have h1 : scaled 0x4B800001#32 = (2 ^ 24 + 2) * 2 ^ 149 := by decide +kernel
  refine ⟨by decide +kernel, by decide +kernel, ?_, ?_⟩
  · rw [val_eq_scaled, val_eq_scaled, h0, h1]; norm_num
  · rw [val_eq_scaled, val_eq_scaled, h0, h1]; norm_num

theorem witness_SumsFollowTheCases :
    isNaN 0x7F800001#32 = true ∧ isNaN 0x7F800000#32 = false ∧ isInf 0x7F800000#32 = true ∧ isInf 0xFF800000#32 = true ∧
      isInf 1#32 = false ∧ isZero 0x80000000#32 = true ∧ isZero 0#32 = true ∧ isFinite 0x7F7FFFFF#32 = true ∧
      (isZero 0#32 && isZero 0x7F7FFFFF#32) = false := by decide

theorem witness_ProductsFollowTheCases :
    isInf 0x7F800000#32 = true ∧ isZero 0x80000000#32 = true ∧ isNaN 0x00000001#32 = false ∧
      isZero 0x00000001#32 = false ∧ isZero 0x7F800000#32 = false ∧ isFinite 0x00000001#32 = true := by decide

theorem witness_QuotientsFollowTheCases :
    isFinite 0x3F800000#32 = true ∧ isZero 0x3F800000#32 = false ∧ isZero 0x80000000#32 = true ∧
      isFinite 0x80000000#32 = true ∧ isInf 0xFF800000#32 = true := by decide

theorem witness_NaNResultsAreCanonical :
    fdiv ∈ [fadd, fsub, fmul, fdiv] ∧ isNaN 0xFFC00001#32 = true ∧ isNaN (fdiv 0#32 0x80000000#32) = true ∧
      isInf 0x7F800000#32 = true ∧ isInf 0xFF800000#32 = true ∧ signOf 0x7F800000#32 ≠ signOf 0xFF800000#32 :=
  ⟨by simp, by decide, by decide +kernel, by decide, by decide, by decide⟩

theorem witness_LessThanIsTheOrderOfValues :
    isFinite 0xFF7FFFFF#32 = true ∧ isFinite 0x80000000#32 = true ∧ isNaN 0x7F800001#32 = true := by decide

theorem witness_FromQ30RoundsAndIsExactOnShortIntegers :
    |(-(2 ^ 30) : Int)| ≤ 2 ^ 30 ∧ |(2 ^ 24 : Int)| ≤ 2 ^ 24 ∧ |(2 ^ 24 : Int) * 2 ^ 6| ≤ 2 ^ 30 := by decide

/-- Both pairs of bounds set, the lower at the upper for the output and below it for the integral. -/
theorem witness_PidClampBoundsHold :
    ∃ t, exec (.pidc 0) (withBank0 { Bank.reset with
        outLo := 0x3F800000#32, outHi := 0x3F800000#32, intLo := 0xBF800000#32, intHi := 0x3F800000#32 }) = .next t ∧
      isNaN 0x3F800000#32 = false ∧ isNaN 0xBF800000#32 = false ∧ fgt 0x3F800000#32 0x3F800000#32 = false ∧
      fgt 0xBF800000#32 0x3F800000#32 = false :=
  ⟨_, rfl, by decide, by decide, by decide +kernel, by decide +kernel⟩

/-- Two zeros of different sign, where the error is -0, and a pair of set bounds. -/
theorem witness_ThirdZeroErrorDeltaCallKeepsOut :
    (∃ t₁ t₂ t₃, exec (.pidc 0) (withBank0 { Bank.reset with
        law := .delta, target := 0x80000000#32, outLo := 0#32, outHi := 0x3F800000#32 }) = .next t₁ ∧
      exec (.pidc 0) t₁ = .next t₂ ∧ exec (.pidc 0) t₂ = .next t₃) ∧
    isFinite 0#32 = true ∧ isFinite 0x80000000#32 = true ∧ val 0#32 = val 0x80000000#32 ∧
      fgt 0#32 0x3F800000#32 = false := by
  have h : scaled 0#32 = scaled 0x80000000#32 := by decide
  exact ⟨⟨_, _, _, rfl, rfl, rfl⟩, by decide, by decide, by rw [val_eq_scaled, val_eq_scaled, h], by decide +kernel⟩

/-- V-PID-1: the scenario from reset. -/
theorem witness_ScenarioOutputsThree :
    ∃ t, exec (.pidc 0) (withBank0 { Bank.reset with
        kp := 0x3F800000#32, target := 0x41200000#32, meas := 0x40E00000#32 }) = .next t ∧
      isNaN Bank.reset.outLo = true ∧ isFinite (t.block.bank 0).integ = true ∧
      isFinite (fsub 0x40400000#32 Bank.reset.err1) = true :=
  ⟨_, rfl, by decide, by decide +kernel, by decide +kernel⟩

theorem witness_NaNStaysInABank :
    (∃ t, exec (.pidc 0) (withBank0 { Bank.reset with meas := 0x7F800001#32, integ := 0x7FC00000#32 }) = .next t) ∧
    (∃ t, exec (.pidc 0) (withBank0 { Bank.reset with law := .delta, out := 0x7FC00000#32 }) = .next t) ∧
    isNaN 0x7F800001#32 = true ∧ isNaN 0x7FC00000#32 = true := ⟨⟨_, rfl⟩, ⟨_, rfl⟩, by decide, by decide⟩

theorem witness_SincosRefMeetsTheContractsExactClauses :
    isFinite 0x7F7FFFFF#32 = true ∧ isFinite 0xFF800000#32 = false := by decide

/-- V-SC-1, V-SC-3, V-SC-4, V-SC-5: an angle for each of the four. -/
theorem witness_CardinalAnglesAreExact :
    bamOf 0#32 = 0 ∧ bamOf 0x3FC90FDB#32 = 0x40000000 ∧ bamOf 0x40490FDB#32 = 0x80000000 ∧
      bamOf 0x4096CBE4#32 = 0xC0000000 := by decide +kernel

/-- V-SC-20: `t` is 2^23 exactly. -/
theorem witness_AngleReductionIsNearestInteger :
    isFinite 0x4C490FDB#32 = true ∧ (2 : ℚ) ^ 23 ≤ |val (fmul 0x4C490FDB#32 0x3E22F983#32)| := by
  have h : scaled (fmul 0x4C490FDB#32 0x3E22F983#32) = 2 ^ 23 * 2 ^ 149 := by decide +kernel
  refine ⟨by decide, ?_⟩
  rw [val_eq_scaled, h]
  norm_num

theorem witness_ZeroVoltageGivesHalfDuties :
    (withBlock { Block.reset with theta := 0x40200000#32 }).block.volD = 0#32 ∧
      (withBlock { Block.reset with theta := 0x40200000#32 }).block.volQ = 0#32 ∧
      isFinite (withBlock { Block.reset with theta := 0x40200000#32 }).block.theta = true := ⟨rfl, rfl, by decide⟩

/-! ## A unit other than `SINCOS_REF` -/

/-- A unit that meets clauses (b) and (c) of 44_sincos.md R212 and is not `SINCOS_REF`: a finite angle gives (0, 1). -/
def plainUnit (theta : Word) : Word × Word :=
  if isFinite theta then (0#32, 0x3F800000#32) else (canonicalNaN, canonicalNaN)

/-- A platform with it. -/
def plainPlatform : Platform := ⟨plainUnit, Config.filtQ, Config.filtD⟩

/-- It differs from this hardware's unit at the word nearest pi/2. -/
theorem test_plainUnit_is_another_unit : plainUnit 0x3FC90FDB#32 ≠ sincosRef 0x3FC90FDB#32 := by decide +kernel

theorem witness_SincosEntersOnlyThroughThePair :
    Instr.park ∈ angleCommands ∧ Instr.pidc 3 ∉ angleCommands ∧
      plainUnit State.reset.block.theta = hardware.sincos State.reset.block.theta := by decide +kernel

theorem witness_NonFiniteAngleGivesNaNWithAnyUnit :
    SincosNonFinite plainPlatform.sincos ∧ isFinite (withBlock { Block.reset with theta := 0xFF800000#32 }).block.theta = false :=
  ⟨fun _ h => by simp [plainPlatform, plainUnit, h], by decide⟩

theorem witness_ZeroVoltageGivesHalfDutiesWithAnyUnit :
    SincosBounded plainPlatform.sincos ∧ State.reset.block.volD = 0#32 ∧ State.reset.block.volQ = 0#32 ∧
      isFinite State.reset.block.theta = true := by
  have h0 : scaled 0#32 = 0 := by decide
  have h1 : scaled 0x3F800000#32 = 2 ^ 149 := by decide
  have f0 : isFinite 0#32 = true := by decide
  have f1 : isFinite 0x3F800000#32 = true := by decide
  refine ⟨fun theta h => ?_, rfl, rfl, by decide⟩
  simp only [plainPlatform, plainUnit, h, if_true, f0, f1, val_eq_scaled, h0, h1]
  norm_num

/-- A NaN, a value at both of its bounds, zeros of different sign, and crossed bounds, with a value above both. -/
theorem witness_ClampTestsTheUpperBoundFirst :
    isNaN 0x7F800001#32 = true ∧ isFinite 0x3F800000#32 = true ∧
      (val 0x3F800000#32 ≤ val 0x3F800000#32) ∧ isZero 0x80000000#32 = true ∧ isZero 0#32 = true ∧
      fgt 0x40000000#32 0x3F800000#32 = true ∧ isNaN 0x40400000#32 = false ∧ fgt 0x40400000#32 0x3F800000#32 = true :=
  ⟨by decide, by decide, le_refl _, by decide, by decide, by decide +kernel, by decide, by decide +kernel⟩

/-- R132: `lo` above `hi`; above `hi` gives `hi`, below `lo` and not above `hi` gives `lo`. -/
theorem test_clamp_crossed_bounds :
    clamp 0x40400000#32 0x40000000#32 0x3F800000#32 = 0x3F800000#32 ∧
      clamp 0x3F000000#32 0x40000000#32 0x3F800000#32 = 0x40000000#32 := by decide +kernel

end Sys2Proof.Tests
end

section
/-! The scope of the model (00_scope.md R4, R7, R15): the machine is the parametrised one on this hardware's platform, and on
every platform each command and each step answers a next state. -/

namespace Sys2Proof.Machine

/-! ## The machine as the parametrised one -/

/-- The five commands that call a parameter call it on `hardware`; the other four are the same on every platform. -/
theorem exec_eq_execOn_hardware (c : Instr) (s : State) : exec c s = execOn hardware c s := by
  cases c with
  | nop | clarke | iclarke | pidc => rfl
  | sincos | park | updcur | ipark | synth => rfl

theorem step_eq_stepOn_hardware (s : State) : step s = stepOn hardware s := by
  have hexec : exec = execOn hardware := funext₂ exec_eq_execOn_hardware
  rw [step, acceptNext, stepOn, hexec]

/-- `SINCOS_REF` is this hardware's unit (44_sincos.md R216). -/
theorem hardware_eq : hardware = ⟨sincosRef, Config.filtQ, Config.filtD⟩ := rfl

/-- Settles O54: `exec` and `step` are `execOn` and `stepOn` at `hardware`, whose `SINCOS` is `SINCOS_REF`. -/
theorem thisHardwareTakesSincosRef : Obligations.ThisHardwareTakesSincosRef := by
  unfold Obligations.ThisHardwareTakesSincosRef
  rw [← hardware_eq]
  exact ⟨exec_eq_execOn_hardware, step_eq_stepOn_hardware⟩

/-! ## Completion -/

/-- No command faults or is refused, whatever the platform (70_reset_and_hazards.md R301). -/
theorem execOn_completes (p : Platform) (c : Instr) (s : State) : ∃ t, execOn p c s = .next t := by
  cases c with
  | nop | clarke | iclarke | pidc => exact ⟨_, rfl⟩
  | sincos => exact ⟨_, execOn_sincos p s⟩
  | park => exact ⟨_, execOn_park p s⟩
  | updcur => exact ⟨_, execOn_updcur p s⟩
  | ipark => exact ⟨_, execOn_ipark p s⟩
  | synth => exact ⟨_, execOn_synth p (execOn_ipark p s)⟩

theorem exec_completes (c : Instr) (s : State) : ∃ t, exec c s = .next t := by
  rw [exec_eq_execOn_hardware]
  exact execOn_completes hardware c s

section
variable {run : Instr → State → Host.Outcome State Fault Refusal} (hrun : ∀ c s, ∃ t, run c s = .next t)
include hrun

/-- A word written to `CMD` is a command, which completes, or illegal, which only raises the flag. -/
theorem commandBy_completes (w : Word) (s : State) : ∃ t, commandBy run w s = .next t := by
  unfold commandBy
  cases decode w with
  | ok c => exact hrun c s
  | error e => exact ⟨_, rfl⟩

/-- Every write has a defined effect (20_memory.md R86); only one to `CMD` depends on a command. -/
theorem writeRegBy_completes (i : RegIndex) (w : Word) (s : State) : ∃ t, writeRegBy run i w s = .next t := by
  unfold writeRegBy
  cases Reg.ofIndex i with
  | none => exact ⟨_, rfl⟩
  | some r =>
    dsimp only
    cases r.access with
    | wo => exact commandBy_completes hrun w s
    | ro | rw | rw1c => exact ⟨_, rfl⟩

theorem acceptBy_completes (x : Input) (s : State) : ∃ t, acceptBy run x s = .next t := by
  cases x with
  | read i => exact ⟨_, rfl⟩
  | write i w => exact writeRegBy_completes hrun i w _
  | reset => exact ⟨_, rfl⟩

theorem acceptNextBy_completes (s : State) : ∃ t, acceptNextBy run s = .next t := by
  unfold acceptNextBy
  cases s.pending with
  | nil => exact ⟨_, rfl⟩
  | cons x rest => exact acceptBy_completes hrun x _

end

theorem stepOn_completes (p : Platform) (s : State) : ∃ t, stepOn p s = .next t :=
  acceptNextBy_completes (execOn_completes p) s

theorem step_completes (s : State) : ∃ t, step s = .next t := by
  rw [step_eq_stepOn_hardware]
  exact stepOn_completes hardware s

/-! ## The idle block -/

theorem acceptNextBy_of_pending_nil (run : Instr → State → Host.Outcome State Fault Refusal) {s : State}
    (h : s.pending = []) : acceptNextBy run s = .next s := by
  simp only [acceptNextBy, h]

theorem step_of_pending_nil {s : State} (h : s.pending = []) : step s = .next s :=
  acceptNextBy_of_pending_nil exec h

/-- Settles O6: completion passes from the commands through the port to the step, on any platform and so on this one; an
idle step is the port with nothing to accept. -/
theorem everyStepAnswersANextState : Obligations.EveryStepAnswersANextState := by
  unfold Obligations.EveryStepAnswersANextState
  exact ⟨exec_completes, step_completes, fun _ => step_of_pending_nil⟩

end Sys2Proof.Machine
end

section
/-! The register map in both directions, the access kinds by index, and the port by index: what each transaction does when
its index is known, and which index it had when its effect is known (10_state.md R22, R23, R40). -/

namespace Sys2Proof.Machine

/-! ## The register map -/

@[simp] theorem Reg.ofIndex_index (r : Reg) : Reg.ofIndex r.index = some r := by
  cases r with
  | bank i f => fin_cases i <;> cases f <;> rfl
  | _ => rfl

/-- The map, checked at each of the 256 indices: a register found there has that index, and nothing is found exactly at
the indices R23 lists as reserved. -/
theorem Reg.ofIndex_spec : ∀ i : RegIndex,
    ((Reg.ofIndex i).all fun r => r.index == i) = true ∧ (Reg.ofIndex i).isNone = reservedIndex i := by
  decide +kernel

theorem Reg.index_of_ofIndex {i : RegIndex} {r : Reg} (h : Reg.ofIndex i = some r) : r.index = i := by
  simpa [h] using (Reg.ofIndex_spec i).1

theorem Reg.ofIndex_eq_none_iff (i : RegIndex) : Reg.ofIndex i = none ↔ reservedIndex i = true := by
  rw [← (Reg.ofIndex_spec i).2, Option.isNone_iff_eq_none]

theorem Reg.index_injective {r r' : Reg} (h : r.index = r'.index) : r = r' := by
  simpa using congrArg Reg.ofIndex h

@[simp] theorem reservedIndex_index (r : Reg) : reservedIndex r.index = false := by
  rw [Bool.eq_false_iff, ne_eq, ← Reg.ofIndex_eq_none_iff, Reg.ofIndex_index]
  simp

/-- The list of R252 (c) is the registers of access kind RO. -/
theorem readOnlyIndex_index (r : Reg) : readOnlyIndex r.index = decide (r.access = .ro) := by
  cases r with
  | bank i f => fin_cases i <;> cases f <;> rfl
  | _ => rfl

/-- The index of an RW register is on neither list of R252, and is neither that of `CMD` nor that of `STATUS`. -/
theorem Reg.index_of_rw {r : Reg} (h : r.access = .rw) :
    reservedIndex r.index = false ∧ readOnlyIndex r.index = false ∧ r.index ≠ 0x01#8 ∧ r.index ≠ 0x02#8 := by
  refine ⟨reservedIndex_index r, by simp [readOnlyIndex_index, h], fun hi => ?_, fun hi => ?_⟩
  · cases Reg.index_injective (r' := .cmd) hi
    cases h
  · cases Reg.index_injective (r' := .status) hi
    cases h

theorem Reg.eq_cmd_of_wo {r : Reg} (h : r.access = .wo) : r = .cmd := by
  cases r with
  | cmd => rfl
  | bank i f => cases f <;> cases h
  | _ => cases h

theorem Reg.eq_status_of_rw1c {r : Reg} (h : r.access = .rw1c) : r = .status := by
  cases r with
  | status => rfl
  | bank i f => cases f <;> cases h
  | _ => cases h

/-- The registers outside the banks stand below the first bank (R22). -/
theorem Reg.eq_bank_of_index {r : Reg} {i : Fin 4} (hlo : 0x40 + 0x10 * i.val ≤ r.index.toNat)
    (hhi : r.index.toNat ≤ 0x4F + 0x10 * i.val) : ∃ f, r = .bank i f := by
  cases r with
  | bank j f =>
    have hf : f.offset ≤ 0xD := by cases f <;> decide
    rw [bankIndex_toNat] at hlo hhi
    have hj : j = i := Fin.ext (by omega)
    exact ⟨f, hj ▸ rfl⟩
  | _ => exact absurd hlo (by simp only [Reg.index, BitVec.toNat_ofNat]; omega)

/-! ## Reading -/

/-- The word of `STATUS` as a number: bits 31:2 are zero (R25). -/
theorem Block.statusWord_toNat (b : Block) :
    b.statusWord.toNat = b.illCmd.toNat + 2 * b.illAcc.toNat := by
  unfold Block.statusWord
  cases b.illCmd <;> cases b.illAcc <;> rfl

theorem readWord_index (r : Reg) (s : State) : readWord r.index s = s.block.readReg r := by
  simp [readWord]

theorem readWord_reserved {i : RegIndex} (h : reservedIndex i = true) (s : State) : readWord i s = 0#32 := by
  simp [readWord, (Reg.ofIndex_eq_none_iff i).2 h]

theorem acceptRead_index (r : Reg) (s : State) :
    acceptRead r.index s = record (.read r.index (s.block.readReg r)) s := by
  simp [acceptRead, readWord_index]

theorem acceptRead_reserved {i : RegIndex} (h : reservedIndex i = true) (s : State) :
    acceptRead i s = raiseIllAcc (record (.read i 0#32) s) := by
  simp [acceptRead, readWord_reserved h, (Reg.ofIndex_eq_none_iff i).2 h]

/-! ## Writing -/

theorem writeReg_rw {r : Reg} (h : r.access = .rw) (w : Word) (s : State) :
    writeReg r.index w s = .next { s with block := s.block.storeReg r w } := by
  simp [writeReg, writeRegBy, h]

theorem writeReg_status (w : Word) (s : State) :
    writeReg 0x02#8 w s = .next { s with block := s.block.clearFlags w } := rfl

theorem writeReg_cmd {w : Word} {c : Instr} (h : decode w = .ok c) (s : State) : writeReg 0x01#8 w s = exec c s := by
  show commandBy exec w s = exec c s
  simp [commandBy, h]

/-- The five things a write can do, each with what it says of the index. -/
theorem writeReg_index_cases {i : RegIndex} {w : Word} {s t : State} (h : writeReg i w s = .next t) :
    ((reservedIndex i = true ∨ readOnlyIndex i = true) ∧ t = raiseIllAcc s) ∨
      (∃ r : Reg, i = r.index ∧ r.access = .rw ∧ t = { s with block := s.block.storeReg r w }) ∨
      (i = 0x02#8 ∧ t = { s with block := s.block.clearFlags w }) ∨
      (i = 0x01#8 ∧ (∃ e, decode w = .error e) ∧ t = raiseIllCmd s) ∨
      (∃ c, i = 0x01#8 ∧ decode w = .ok c ∧ exec c s = .next t) := by
  obtain ⟨hi, rfl⟩ | ⟨r, hr, ha, rfl⟩ | ⟨r, hr, ha, rfl⟩ | ⟨r, hr, ha, he, rfl⟩ | ⟨r, c, hr, ha, hd, hc⟩ :=
    writeReg_cases h
  · obtain hnone | ⟨r, hr, ha⟩ := hi
    · exact .inl ⟨.inl ((Reg.ofIndex_eq_none_iff i).1 hnone), rfl⟩
    · have hro : readOnlyIndex i = true := by
        rw [← Reg.index_of_ofIndex hr, readOnlyIndex_index, ha]
        rfl
      exact .inl ⟨.inr hro, rfl⟩
  · exact .inr (.inl ⟨r, (Reg.index_of_ofIndex hr).symm, ha, rfl⟩)
  · cases Reg.eq_status_of_rw1c ha
    exact .inr (.inr (.inl ⟨(Reg.index_of_ofIndex hr).symm, rfl⟩))
  · cases Reg.eq_cmd_of_wo ha
    exact .inr (.inr (.inr (.inl ⟨(Reg.index_of_ofIndex hr).symm, he, rfl⟩)))
  · cases Reg.eq_cmd_of_wo ha
    exact .inr (.inr (.inr (.inr ⟨c, (Reg.index_of_ofIndex hr).symm, hd, hc⟩)))

/-! ## A step whose next transaction is known -/

section
variable {s : State} {i : RegIndex} {w : Word} {rest : List Input}

theorem step_of_read (h : s.pending = .read i :: rest) :
    step s = .next (acceptRead i (withPending rest s)) := by
  simp [step, acceptNext, acceptNextBy, acceptBy, h]

theorem step_of_write (h : s.pending = .write i w :: rest) :
    step s = writeReg i w (record (.write i w) (withPending rest s)) := by
  simp [step, acceptNext, acceptNextBy, acceptBy, acceptWriteBy, writeReg, h]

end

/-! ## Storing into an RW register -/

/-- A word stored into an RW register is read back; `PCTRL` alone keeps only its bit 0 (R35, R41). -/
theorem Block.readReg_storeReg_self (b : Block) {r : Reg} (w : Word) (hrw : r.access = .rw)
    (hp : ∀ j, r ≠ .bank j .pctrl) : (b.storeReg r w).readReg r = w := by
  cases r with
  | bank i f =>
    show (((b.setBank i ((b.bank i).storeReg f w)).bank i).readReg f) = w
    rw [Block.bank_setBank_self]
    cases f with
    | pctrl => exact absurd rfl (hp i)
    | err1 | err2 | integ | out => cases hrw
    | _ => rfl
  | theta | curU | curV | curW | curA | curB | volD | volQ | volA | volB => rfl
  | _ => cases hrw

theorem Bank.readReg_storeReg_ne (b : Bank) {f f' : BankReg} (w : Word) (h : f' ≠ f) :
    (b.storeReg f w).readReg f' = b.readReg f' := by
  cases f <;> cases f' <;> trivial

/-- Storing into one register leaves every other one as it reads. -/
theorem Block.readReg_storeReg_ne (b : Block) {r r' : Reg} (w : Word) (h : r' ≠ r) :
    (b.storeReg r w).readReg r' = b.readReg r' := by
  cases r' with
  | bank j f' =>
    show ((b.storeReg r w).bank j).readReg f' = (b.bank j).readReg f'
    obtain hb | ⟨f, rfl, hb⟩ := b.storeReg_bank r w j
    · rw [hb]
    · rw [hb, Bank.readReg_storeReg_ne _ w fun hf => h (congrArg (Reg.bank j) hf)]
  | _ => cases r <;> trivial

/-! ## The law of a bank -/

/-- Bit 0 selects the law (R41). -/
theorem Law.ofWord_eq (w : Word) : Law.ofWord w = if w.toNat % 2 = 1 then .delta else .position := by
  simp [Law.ofWord, BitVec.getLsbD, Nat.testBit_zero]

theorem Law.word_ofWord_toNat (w : Word) : (Law.ofWord w).word.toNat = w.toNat % 2 := by
  rw [Law.ofWord_eq]
  obtain h | h := Nat.mod_two_eq_zero_or_one w.toNat <;> rw [h] <;> rfl

end Sys2Proof.Machine
end

section
/-! What every command keeps: one induction over the shared operations the commands are made of, and from it the frames of
the host's registers, the flags and the banks. -/

namespace Sys2Proof.Machine

/-- A command is made of these six operations, so what each of them keeps every command keeps. -/
theorem exec_induction {P : State → Prop}
    (hangle : ∀ theta s, P s → P (putAngle (sincosUnit theta) s))
    (hstationary : ∀ ia ib s, P s → P (putStationary ia ib s))
    (hfilters : ∀ qraw draw s, P s → P (exchangeFilters hardware qraw draw s))
    (hvoltage : ∀ ua ub s, P s → P (putVoltage ua ub s))
    (hduty : ∀ u v w s, P s → P (emitDuty u v w s))
    (hpidc : ∀ i s, P s → P (putBank i (pidCompute (s.block.bank i)) s))
    {c : Instr} {s t : State} (hs : P s) (h : exec c s = .next t) : P t := by
  cases c with
  | nop => cases h; exact hs
  | sincos => cases h; exact hangle _ _ hs
  | clarke => cases h; exact hstationary _ _ _ hs
  | park => cases h; exact hfilters _ _ _ (hangle _ _ hs)
  | updcur => cases h; exact hfilters _ _ _ (hangle _ _ (hstationary _ _ _ hs))
  | ipark => cases h; exact hvoltage _ _ _ (hangle _ _ hs)
  | iclarke => cases h; exact hduty _ _ _ _ hs
  | synth => cases h; exact hduty _ _ _ _ (hvoltage _ _ _ (hangle _ _ hs))
  | pidc i => cases h; exact hpidc _ _ hs

/-! ## The registers only the host writes -/

/-- The bank registers only the host writes (41_pid.md R152). -/
def BankReg.hostOnly (f : BankReg) : Prop :=
  f ∈ [BankReg.pctrl, .target, .kp, .ki, .kd, .intHi, .intLo, .outHi, .outLo, .meas]

theorem Bank.readReg_pidCompute (b : Bank) {f : BankReg} (hf : f.hostOnly) : (pidCompute b).readReg f = b.readReg f := by
  obtain ⟨hlaw, htarget, hmeas, hkp, hki, hkd, hintHi, hintLo, houtHi, houtLo⟩ := pidCompute_operands b
  cases f with
  | pctrl => exact congrArg Law.word hlaw
  | target => exact htarget
  | kp => exact hkp
  | ki => exact hki
  | kd => exact hkd
  | intHi => exact hintHi
  | intLo => exact hintLo
  | outHi => exact houtHi
  | outLo => exact houtLo
  | meas => exact hmeas
  | err1 | err2 | integ | out => simp [BankReg.hostOnly] at hf

/-- Two blocks agree on the registers only the host writes. -/
structure Block.SameHostRegs (b b' : Block) : Prop where
  theta : b'.theta = b.theta
  curU : b'.curU = b.curU
  curV : b'.curV = b.curV
  curW : b'.curW = b.curW
  volD : b'.volD = b.volD
  volQ : b'.volQ = b.volQ
  bank : ∀ j f, f.hostOnly → (b'.bank j).readReg f = (b.bank j).readReg f

/-- An update that keeps the six registers and the banks keeps them all. -/
theorem Block.SameHostRegs.of_pid {b b' c : Block} (h : b.SameHostRegs b')
    (hregs : (c.theta, c.curU, c.curV, c.curW, c.volD, c.volQ, c.pid) =
      (b'.theta, b'.curU, b'.curV, b'.curW, b'.volD, b'.volQ, b'.pid)) : b.SameHostRegs c := by
  simp only [Prod.mk.injEq] at hregs
  obtain ⟨htheta, hcurU, hcurV, hcurW, hvolD, hvolQ, hpid⟩ := hregs
  refine ⟨htheta.trans h.theta, hcurU.trans h.curU, hcurV.trans h.curV, hcurW.trans h.curW, hvolD.trans h.volD,
    hvolQ.trans h.volQ, fun j f hf => ?_⟩
  rw [Block.bank, hpid]
  exact h.bank j f hf

theorem Block.SameHostRegs.pidc {b b' : Block} (h : b.SameHostRegs b') (i : Fin 4) :
    b.SameHostRegs (b'.setBank i (pidCompute (b'.bank i))) where
  theta := h.theta
  curU := h.curU
  curV := h.curV
  curW := h.curW
  volD := h.volD
  volQ := h.volQ
  bank j f hf := by
    rw [← h.bank j f hf]
    by_cases hj : j = i
    · rw [hj, Block.bank_setBank_self, Bank.readReg_pidCompute _ hf]
    · rw [Block.bank_setBank_ne _ _ hj]

theorem exec_sameHostRegs {c : Instr} {s t : State} (h : exec c s = .next t) : s.block.SameHostRegs t.block :=
  exec_induction (P := fun u => s.block.SameHostRegs u.block)
    (fun _ _ hu => hu.of_pid rfl) (fun _ _ _ hu => hu.of_pid rfl) (fun _ _ _ hu => hu.of_pid rfl)
    (fun _ _ _ hu => hu.of_pid rfl) (fun _ _ _ _ hu => hu.of_pid rfl) (fun i _ hu => hu.pidc i)
    ⟨rfl, rfl, rfl, rfl, rfl, rfl, fun _ _ _ => rfl⟩ h

theorem Block.SameHostRegs.readReg {b b' : Block} (h : b.SameHostRegs b') {r : Reg} (hr : hostOnlyReg r) :
    b'.readReg r = b.readReg r := by
  obtain hr | ⟨j, f, hf, rfl⟩ := hr
  · cases r with
    | theta => exact h.theta
    | curU => exact h.curU
    | curV => exact h.curV
    | curW => exact h.curW
    | volD => exact h.volD
    | volQ => exact h.volQ
    | _ => simp at hr
  · exact h.bank j f hf

/-- Settles O20, by the induction over the operations a command is made of. -/
theorem noCommandWritesAHostRegister : Obligations.NoCommandWritesAHostRegister := by
  unfold Obligations.NoCommandWritesAHostRegister
  exact fun _ _ _ _ hr h => (exec_sameHostRegs h).readReg hr

/-! ## The registers no command reads -/

/-- Settles O21: no operation a command is made of names `CUR_W`. -/
theorem noCommandReadsOrWritesCurW : Obligations.NoCommandReadsOrWritesCurW := by
  unfold Obligations.NoCommandReadsOrWritesCurW
  intro c s t w h
  cases c <;> (cases h; rfl)

/-- A command that evaluates the angle overwrites `SIN` and `COS`, whatever they held. -/
theorem exec_sin_cos_of_angleCommand {c : Instr} (hc : c ∈ angleCommands) (s : State) (x y : Word) :
    exec c { s with block := { s.block with sin := x, cos := y } } = exec c s := by
  cases c with
  | sincos | park | updcur | ipark | synth => rfl
  | nop | clarke | iclarke | pidc => simp [angleCommands] at hc

theorem exec_sin_cos_of_not_angleCommand {c : Instr} (hc : c ∉ angleCommands) {s t : State} (x y : Word)
    (h : exec c s = .next t) :
    t.block.sin = s.block.sin ∧ t.block.cos = s.block.cos ∧
      exec c { s with block := { s.block with sin := x, cos := y } } =
        .next { t with block := { t.block with sin := x, cos := y } } := by
  cases c with
  | nop | clarke | iclarke | pidc => cases h; exact ⟨rfl, rfl, rfl⟩
  | sincos | park | updcur | ipark | synth => simp [angleCommands] at hc

/-- Settles O22: the two kinds of command apart. -/
theorem noCommandReadsSinOrCos : Obligations.NoCommandReadsSinOrCos := by
  unfold Obligations.NoCommandReadsSinOrCos
  exact fun c s t x y h =>
    ⟨fun hc => (exec_sin_cos_of_angleCommand hc s x y).trans h, fun hc => exec_sin_cos_of_not_angleCommand hc x y h⟩

/-! ## The flags -/

theorem exec_flags {c : Instr} {s t : State} (h : exec c s = .next t) :
    t.block.illCmd = s.block.illCmd ∧ t.block.illAcc = s.block.illAcc :=
  exec_induction (P := fun u => u.block.illCmd = s.block.illCmd ∧ u.block.illAcc = s.block.illAcc)
    (fun _ _ hu => hu) (fun _ _ _ hu => hu) (fun _ _ _ hu => hu) (fun _ _ _ hu => hu) (fun _ _ _ _ hu => hu)
    (fun _ _ hu => hu) ⟨rfl, rfl⟩ h

/-- No command reads a flag: with others in their place it does the same. -/
theorem exec_with_flags {c : Instr} {s t : State} (illCmd illAcc : Bool) (h : exec c s = .next t) :
    exec c { s with block := { s.block with illCmd := illCmd, illAcc := illAcc } } =
      .next { t with block := { t.block with illCmd := illCmd, illAcc := illAcc } } := by
  cases c <;> (cases h; rfl)

/-! ## The banks -/

theorem exec_bank_of_ne {c : Instr} {i : Fin 4} (hc : c ≠ .pidc i) {s t : State} (h : exec c s = .next t) :
    t.block.bank i = s.block.bank i := by
  cases c with
  | pidc j =>
    cases h
    exact Block.bank_setBank_ne _ _ fun hij => hc (congrArg Instr.pidc hij.symm)
  | _ => cases h; rfl

theorem exec_pidc_bank {i : Fin 4} {s t : State} (h : exec (.pidc i) s = .next t) :
    t.block.bank i = pidCompute (s.block.bank i) := by
  cases h
  exact Block.bank_setBank_self _ _ _

/-- `PIDC` changes nothing of the block outside the banks (R50). -/
theorem exec_pidc_frame {i : Fin 4} {s t : State} (h : exec (.pidc i) s = .next t) :
    { t.block with pid := s.block.pid } = s.block := by
  cases h
  rfl

/-- A write whose index is in bank `i`'s range raises `ILLACC` or stores into bank `i`. -/
theorem writeReg_bank_cases {i : Fin 4} {x : RegIndex} {w : Word} {s t : State} (hlo : 0x40 + 0x10 * i.val ≤ x.toNat)
    (hhi : x.toNat ≤ 0x4F + 0x10 * i.val) (h : writeReg x w s = .next t) :
    t = raiseIllAcc s ∨ ∃ f, t = putBank i ((s.block.bank i).storeReg f w) s := by
  obtain ⟨-, rfl⟩ | ⟨r, rfl, -, rfl⟩ | ⟨rfl, -⟩ | ⟨rfl, -⟩ | ⟨c, rfl, -⟩ := writeReg_index_cases h
  · exact .inl rfl
  · obtain ⟨f, rfl⟩ := Reg.eq_bank_of_index hlo hhi
    exact .inr ⟨f, rfl⟩
  all_goals
    simp only [BitVec.toNat_ofNat] at hlo
    omega

/-- Settles O23: `PIDC` and a write of a bank's register both act through `putBank`. -/
theorem banksAreIndependent : Obligations.BanksAreIndependent := by
  unfold Obligations.BanksAreIndependent
  refine ⟨fun i s t h => ⟨fun j hj => exec_bank_of_ne (fun hc => hj (Instr.pidc.inj hc).symm) h, exec_pidc_frame h⟩,
    fun i i' s s' t t' hbank h h' => ?_, fun i x w s t hlo hhi h => ?_⟩
  · rw [exec_pidc_bank h, exec_pidc_bank h', hbank]
  · obtain rfl | ⟨f, rfl⟩ := writeReg_bank_cases hlo hhi h
    · exact ⟨fun _ _ => rfl, rfl⟩
    · exact ⟨fun _ hj => Block.bank_setBank_ne _ _ hj, rfl⟩

end Sys2Proof.Machine
end

section
/-! What every step keeps: the invariant of Safety.lean, by the induction over a command's operations and the cases of a
step. -/

namespace Sys2Proof.Machine

/-! ## No result of arithmetic is a foreign NaN (40_numerics.md R124) -/

theorem canonical_of_not_isNaN {w : Word} (h : isNaN w = false) : canonical w := fun hw => absurd hw (by simp [h])

theorem canonical_canonicalNaN : canonical canonicalNaN := fun _ => rfl

/-- Up to the magnitude of the infinity, no word is a NaN. -/
theorem isNaN_packWord {s : Bool} {m : Nat} (h : m ≤ 0x7F800000) : isNaN (packWord s m) = false := by
  have hm : m < 2 ^ 31 := by omega
  rw [Bool.eq_false_iff, ne_eq, isNaN_eq, expOf_packWord hm, fracOf_packWord hm]
  omega

theorem isNaN_round32 (num : Int) (den : Nat) (z : Bool) : isNaN (round32 num den z) = false := by
  unfold round32
  split
  · exact isNaN_packWord (by decide)
  · exact isNaN_packWord (roundMag_le _ _)

theorem canonical_fadd (a b : Word) : canonical (fadd a b) := by
  unfold fadd
  by_cases hnan : (isNaN a || isNaN b) = true
  · rw [if_pos hnan]
    exact canonical_canonicalNaN
  · rw [if_neg hnan]
    obtain ⟨ha, hb⟩ : isNaN a = false ∧ isNaN b = false := by simpa using hnan
    have hca := canonical_of_not_isNaN ha
    have hcb := canonical_of_not_isNaN hb
    split_ifs
    · exact hca
    · exact canonical_canonicalNaN
    · exact hca
    · exact hcb
    · exact hca
    · exact canonical_of_not_isNaN (isNaN_packWord (by decide))
    · exact canonical_of_not_isNaN (isNaN_round32 _ _ _)

theorem canonical_fsub (a b : Word) : canonical (fsub a b) := by
  unfold fsub
  split
  · exact canonical_canonicalNaN
  · exact canonical_fadd _ _

/-- A clamp answers its operand or a bound that is no NaN. -/
theorem canonical_clampIfSet {x : Word} (hx : canonical x) (lo hi : Word) : canonical (clampIfSet x lo hi) := by
  unfold clampIfSet
  by_cases hset : (!isNaN lo && !isNaN hi) = true
  · rw [if_pos hset]
    obtain ⟨hlo, hhi⟩ : isNaN lo = false ∧ isNaN hi = false := by simpa using hset
    unfold clamp
    split_ifs
    · exact canonical_of_not_isNaN hhi
    · exact canonical_of_not_isNaN hlo
    · exact hx
  · rwa [if_neg hset]

theorem Bank.ResultsCanonical.pidCompute {b : Bank} (h : b.ResultsCanonical) : (pidCompute b).ResultsCanonical := by
  have herr : canonical (pidError b) := canonical_fsub _ _
  cases hlaw : b.law with
  | position =>
    rw [pidCompute_position hlaw]
    exact ⟨herr, h.err2, canonical_clampIfSet (canonical_fadd _ _) _ _, canonical_clampIfSet (canonical_fadd _ _) _ _⟩
  | delta =>
    rw [pidCompute_delta hlaw]
    exact ⟨herr, h.err1, h.integ, canonical_clampIfSet (canonical_fadd _ _) _ _⟩

theorem Bank.ResultsCanonical.storeReg {b : Bank} (h : b.ResultsCanonical) (f : BankReg) (w : Word) :
    (b.storeReg f w).ResultsCanonical := by
  obtain ⟨herr1, herr2, hinteg, hout⟩ := b.storeReg_results f w
  exact ⟨herr1 ▸ h.err1, herr2 ▸ h.err2, hinteg ▸ h.integ, hout ▸ h.out⟩

theorem Bank.resultsCanonical_reset : Bank.reset.ResultsCanonical := by
  have hzero : canonical 0#32 := canonical_of_not_isNaN (by decide)
  exact ⟨hzero, hzero, hzero, hzero⟩

/-! ## What the operations keep of the invariant -/

namespace State.Inv

variable {s : State}

/-- The invariant reads of the block the registers commands alone write. -/
theorem withBlock (h : s.Inv) {b : Block}
    (hregs : (b.sin, b.cos, b.curQ, b.curD, b.dutyU, b.dutyV, b.dutyW) =
      (s.block.sin, s.block.cos, s.block.curQ, s.block.curD, s.block.dutyU, s.block.dutyV, s.block.dutyW))
    (hresults : ∀ i, (b.bank i).ResultsCanonical) : State.Inv { s with block := b } := by
  simp only [Prod.mk.injEq] at hregs
  obtain ⟨hsin, hcos, hcurQ, hcurD, hdutyU, hdutyV, hdutyW⟩ := hregs
  constructor
  case angle => simpa only [hsin, hcos] using h.angle
  case rotating => simpa only [hcurQ, hcurD] using h.rotating
  case duties => simpa only [hdutyU, hdutyV, hdutyW] using h.duties
  case seenQ => exact h.seenQ
  case seenD => exact h.seenD
  case results => exact hresults

theorem setBank (h : s.Inv) (i : Fin 4) {v : Bank} (hv : v.ResultsCanonical) : (putBank i v s).Inv := by
  refine h.withBlock rfl fun j => ?_
  by_cases hj : j = i
  · rw [hj, Block.bank_setBank_self]
    exact hv
  · rw [Block.bank_setBank_ne _ _ hj]
    exact h.results j

theorem storeReg (h : s.Inv) (r : Reg) (w : Word) : State.Inv { s with block := s.block.storeReg r w } := by
  obtain ⟨hsin, hcos, hcurQ, hcurD, hdutyU, hdutyV, hdutyW, -, -⟩ := s.block.storeReg_readOnly r w
  refine h.withBlock (by rw [hsin, hcos, hcurQ, hcurD, hdutyU, hdutyV, hdutyW]) fun j => ?_
  obtain hj | ⟨f, -, hj⟩ := s.block.storeReg_bank r w j
  · rw [hj]
    exact h.results j
  · rw [hj]
    exact (h.results j).storeReg f w

theorem putAngle (h : s.Inv) (theta : Word) : (putAngle (sincosUnit theta) s).Inv where
  angle := .inr ⟨theta, rfl⟩
  rotating := h.rotating
  duties := h.duties
  seenQ := h.seenQ
  seenD := h.seenD
  results := h.results

/-- The event of a port transaction says nothing of the collaborators. -/
theorem recordTransaction (h : s.Inv) {e : Event} (he : (∃ i w, e = .read i w) ∨ ∃ i w, e = .write i w) :
    (record e s).Inv := by
  have hproj : presentedQ (s.history ++ [e]) = presentedQ s.history ∧
      presentedD (s.history ++ [e]) = presentedD s.history ∧ answeredQ (s.history ++ [e]) = answeredQ s.history ∧
      answeredD (s.history ++ [e]) = answeredD s.history ∧
      emittedDuties (s.history ++ [e]) = emittedDuties s.history := by
    obtain ⟨i, w, rfl⟩ | ⟨i, w, rfl⟩ := he <;> simp [presentedQ, presentedD, answeredQ, answeredD, emittedDuties]
  obtain ⟨hpQ, hpD, haQ, haD, hduties⟩ := hproj
  constructor
  case angle => exact h.angle
  case rotating => rw [record_history, haQ, haD]; exact h.rotating
  case duties => rw [record_history, hduties]; exact h.duties
  case seenQ => rw [record_history, hpQ]; exact h.seenQ
  case seenD => rw [record_history, hpD]; exact h.seenD
  case results => exact h.results

theorem emitDuty (h : s.Inv) (u v w : Word) : (emitDuty u v w s).Inv where
  angle := h.angle
  rotating := by simpa [answeredQ, answeredD] using h.rotating
  duties := .inr (by simp [emittedDuties])
  seenQ := by simpa [presentedQ] using h.seenQ
  seenD := by simpa [presentedD] using h.seenD
  results := h.results

end State.Inv

/-- A filter that keeps the list of what it has seen adds the word presented to it. -/
theorem FilterState.sample_eq_external {answer : List Word → Word} {f : FilterState} {x : Word} {seen : List Word}
    (h : (f.sample answer x).1 = .external seen) : ∃ before, f = .external before ∧ seen = before ++ [x] := by
  cases f with
  | external before => exact ⟨before, rfl, (FilterState.external.inj h).symm⟩
  | identity | half => cases h

namespace State.Inv

variable {s : State}

theorem exchangeFilters (h : s.Inv) (p : Platform) (qraw draw : Word) : (exchangeFilters p qraw draw s).Inv where
  angle := h.angle
  rotating := .inr (by simp [answeredQ, answeredD])
  duties := by simpa [emittedDuties] using h.duties
  seenQ seen hseen := by
    obtain ⟨before, hf, rfl⟩ := FilterState.sample_eq_external hseen
    rw [h.seenQ before hf]
    simp [presentedQ]
  seenD seen hseen := by
    obtain ⟨before, hf, rfl⟩ := FilterState.sample_eq_external hseen
    rw [h.seenD before hf]
    simp [presentedD]
  results := h.results

theorem exec (h : s.Inv) {c : Instr} {t : State} (hc : exec c s = .next t) : t.Inv :=
  exec_induction (P := State.Inv) (fun theta _ hu => hu.putAngle theta)
    (fun _ _ _ hu => hu.withBlock rfl hu.results) (fun qraw draw _ hu => hu.exchangeFilters hardware qraw draw)
    (fun _ _ _ hu => hu.withBlock rfl hu.results) (fun u v w _ hu => hu.emitDuty u v w)
    (fun i _ hu => hu.setBank i (hu.results i).pidCompute) h hc

/-! ## What the inputs keep of the invariant -/

theorem withPending (h : s.Inv) (rest : List Input) : (withPending rest s).Inv :=
  ⟨h.angle, h.rotating, h.duties, h.seenQ, h.seenD, h.results⟩

/-- The reset input leaves the filters and the history, and the block's zeros need no history. -/
theorem resetBlock (h : s.Inv) : (resetBlock s).Inv where
  angle := .inl ⟨rfl, rfl⟩
  rotating := .inl ⟨rfl, rfl⟩
  duties := .inl ⟨rfl, rfl, rfl⟩
  seenQ := h.seenQ
  seenD := h.seenD
  results i := by
    rw [resetBlock_block, Block.reset_bank]
    exact Bank.resultsCanonical_reset

theorem acceptRead (h : s.Inv) (i : RegIndex) : (acceptRead i s).Inv := by
  have hrecord := h.recordTransaction (.inl ⟨i, readWord i s, rfl⟩)
  obtain heq | ⟨-, heq⟩ := acceptRead_cases i s
  · rwa [heq]
  · rw [heq]
    exact hrecord.withBlock rfl hrecord.results

theorem writeReg (h : s.Inv) {i : RegIndex} {w : Word} {t : State} (hw : writeReg i w s = .next t) : t.Inv := by
  obtain ⟨-, rfl⟩ | ⟨r, -, -, rfl⟩ | ⟨r, -, -, rfl⟩ | ⟨r, -, -, -, rfl⟩ | ⟨r, c, -, -, -, hc⟩ := writeReg_cases hw
  · exact h.withBlock rfl h.results
  · exact h.storeReg r w
  · exact h.withBlock rfl h.results
  · exact h.withBlock rfl h.results
  · exact h.exec hc

theorem step (h : s.Inv) {t : State} (hs : step s = .next t) : t.Inv := by
  obtain ⟨-, rfl⟩ | ⟨rest, -, rfl⟩ | ⟨i, rest, -, rfl⟩ | ⟨i, w, rest, -, hw⟩ := step_cases hs
  · exact h
  · exact (h.withPending rest).resetBlock
  · exact (h.withPending rest).acceptRead i
  · exact ((h.withPending rest).recordTransaction (.inr ⟨i, w, rfl⟩)).writeReg hw

end State.Inv

/-- Settles O38: a command keeps the invariant because its operations do, and the port adds events and stores that it does
not read. -/
theorem everyStepKeepsTheInvariant : Obligations.EveryStepKeepsTheInvariant := by
  unfold Obligations.EveryStepKeepsTheInvariant
  exact fun _ _ hinv hstep => hinv.step hstep

/-- Settles O37: nothing has been presented, answered or emitted, and every result is a zero. -/
theorem resetStateMeetsTheInvariant : Obligations.ResetStateMeetsTheInvariant where
  angle := .inl ⟨rfl, rfl⟩
  rotating := .inl ⟨rfl, rfl⟩
  duties := .inl ⟨rfl, rfl, rfl⟩
  seenQ _ hseen := (FilterState.external.inj hseen).symm
  seenD _ hseen := (FilterState.external.inj hseen).symm
  results i := by
    rw [State.reset, Block.reset_bank]
    exact Bank.resultsCanonical_reset

end Sys2Proof.Machine
end

section
/-! The registers and the port, statement by statement: the map, reads, writes, `PCTRL`, `CMD` and the values after reset,
each from the equations of the port by index. -/

namespace Sys2Proof.Machine

/-- Settles O27: the map in both directions, and each read through the index of its register. -/
theorem registerMapIsExact : Obligations.RegisterMapIsExact := by
  unfold Obligations.RegisterMapIsExact
  refine ⟨Reg.ofIndex_index, fun _ _ => Reg.index_of_ofIndex, Reg.ofIndex_eq_none_iff, bankIndex_toNat, fun s => ?_,
    fun i s => ?_, fun _ => ⟨rfl, rfl, rfl, rfl⟩, readWord_index⟩
  · exact ⟨readWord_index .blkid s, readWord_index .cmd s, s.block.statusWord_toNat, readWord_index .theta s,
      readWord_index .sin s, readWord_index .cos s, readWord_index .curU s, readWord_index .curV s,
      readWord_index .curW s, readWord_index .curA s, readWord_index .curB s, readWord_index .curQ s,
      readWord_index .curD s, readWord_index .volD s, readWord_index .volQ s, readWord_index .volA s,
      readWord_index .volB s, readWord_index .dutyU s, readWord_index .dutyV s, readWord_index .dutyW s⟩
  · have hread : ∀ f, readWord (Reg.bank i f).index s = (s.block.bank i).readReg f := fun f => readWord_index _ s
    exact ⟨hread .pctrl, hread .target, hread .kp, hread .ki, hread .kd, hread .intHi, hread .intLo, hread .outHi,
      hread .outLo, hread .meas, hread .err1, hread .err2, hread .integ, hread .out⟩

/-- Settles O28: a mapped index and a reserved one, each by its equation of `acceptRead`. -/
theorem readsHaveNoSideEffect : Obligations.ReadsHaveNoSideEffect := by
  unfold Obligations.ReadsHaveNoSideEffect
  refine fun s i rest hp => ⟨fun r hr => ?_, fun hres => ?_⟩
  · subst hr
    rw [step_of_read hp, acceptRead_index]
    rfl
  · rw [step_of_read hp, acceptRead_reserved hres]
    rfl

/-- Settles O29: the two words do not depend on the state. -/
theorem identityAndCommandRead : Obligations.IdentityAndCommandRead := by
  unfold Obligations.IdentityAndCommandRead
  exact fun s => ⟨readWord_index .blkid s, readWord_index .cmd s⟩

/-- Settles O4: a write to index 0x01 is the decoded command. -/
theorem stepRunsTheDecodedCommand : Obligations.StepRunsTheDecodedCommand := by
  unfold Obligations.StepRunsTheDecodedCommand
  intro s w c rest hp hd
  rw [step_of_write hp, writeReg_cmd hd]
  rfl

theorem BankReg.hostOnly.access_eq {f : BankReg} (h : f.hostOnly) : f.access = .rw := by
  unfold BankReg.hostOnly at h
  revert f
  decide

theorem hostOnlyReg.access_eq {r : Reg} (h : hostOnlyReg r) : r.access = .rw := by
  obtain h | ⟨j, f, hf, rfl⟩ := h
  · revert r
    decide
  · exact BankReg.hostOnly.access_eq hf

/-- Settles O31: the step stores the word by `Block.storeReg`, which the two lemmas on reading back describe. -/
theorem writesStoreTheWord : Obligations.WritesStoreTheWord := by
  unfold Obligations.WritesStoreTheWord
  intro s r w rest hp hr hpctrl
  have hrw : r.access = .rw := by
    obtain hr | hr := hr
    · exact hr.access_eq
    · clear hp hpctrl
      revert r
      decide
  refine ⟨s.block.storeReg r w, ?_, s.block.readReg_storeReg_self w hrw hpctrl,
    fun r' hne => s.block.readReg_storeReg_ne w hne⟩
  rw [step_of_write hp, writeReg_rw hrw]
  rfl

/-- Settles O33: the write stores the law of bit 0, and `PCTRL` reads that law's word. -/
theorem pctrlKeepsOnlyTheLaw : Obligations.PctrlKeepsOnlyTheLaw := by
  unfold Obligations.PctrlKeepsOnlyTheLaw
  intro s i w rest hp
  have hstep : step s = .next { s with
      block := s.block.setBank i { s.block.bank i with law := Law.ofWord w }
      history := s.history ++ [.write (Reg.bank i .pctrl).index w]
      pending := rest } := by
    rw [step_of_write hp, writeReg_rw (r := .bank i .pctrl) rfl]
    rfl
  refine ⟨by rw [hstep, Law.ofWord_eq], fun t ht => ?_⟩
  cases hstep.symm.trans ht
  simp only [Block.readReg, Block.bank_setBank_self, Bank.readReg, Law.word_ofWord_toNat]

/-- Settles O35: register by register; the four banks are alike. -/
theorem resetGivesEveryRegisterItsValue : Obligations.ResetGivesEveryRegisterItsValue := by
  unfold Obligations.ResetGivesEveryRegisterItsValue
  refine ⟨rfl, rfl, fun r => ?_⟩
  cases r with
  | bank i f =>
    rw [State.reset, Block.readReg, Block.reset_bank]
    cases f <;> rfl
  | _ => rfl

/-! ## The flags -/

section
variable {i : RegIndex} {w : Word} {s t : State}

/-- `ILLCMD` after a write: set by an illegal word at `CMD`, cleared by bit 0 at `STATUS` (R25, R251). -/
theorem writeReg_illCmd_iff (h : writeReg i w s = .next t) :
    t.block.illCmd = true ↔
      (i = 0x02#8 ∧ s.block.illCmd = true ∧ w.getLsbD 0 = false) ∨
        (i = 0x01#8 ∧ (s.block.illCmd = true ∨ ∃ e, decode w = .error e)) ∨
        (i ≠ 0x02#8 ∧ i ≠ 0x01#8 ∧ s.block.illCmd = true) := by
  obtain ⟨hi, rfl⟩ | ⟨r, rfl, hrw, rfl⟩ | ⟨rfl, rfl⟩ | ⟨rfl, he, rfl⟩ | ⟨c, rfl, hd, hc⟩ := writeReg_index_cases h
  · have h1 : i ≠ 0x01#8 := by rintro rfl; revert hi; decide
    have h2 : i ≠ 0x02#8 := by rintro rfl; revert hi; decide
    simp [h1, h2]
  · obtain ⟨-, -, h1, h2⟩ := Reg.index_of_rw hrw
    obtain ⟨-, -, -, -, -, -, -, hflag, -⟩ := s.block.storeReg_readOnly r w
    simp [h1, h2, hflag]
  · simp
  · simp [he]
  · simp [(exec_flags hc).1, hd]

/-- `ILLACC` after a write: set at a reserved or a read-only index, cleared by bit 1 at `STATUS` (R25, R252). -/
theorem writeReg_illAcc_iff (h : writeReg i w s = .next t) :
    t.block.illAcc = true ↔
      (i = 0x02#8 ∧ s.block.illAcc = true ∧ w.getLsbD 1 = false) ∨
        (i ≠ 0x02#8 ∧ (s.block.illAcc = true ∨ reservedIndex i = true ∨ readOnlyIndex i = true)) := by
  have hcmd : reservedIndex 0x01#8 = false ∧ readOnlyIndex 0x01#8 = false := by decide
  obtain ⟨hi, rfl⟩ | ⟨r, rfl, hrw, rfl⟩ | ⟨rfl, rfl⟩ | ⟨rfl, -, rfl⟩ | ⟨c, rfl, -, hc⟩ := writeReg_index_cases h
  · have h2 : i ≠ 0x02#8 := by rintro rfl; revert hi; decide
    simp [h2, hi]
  · obtain ⟨hres, hro, -, h2⟩ := Reg.index_of_rw hrw
    obtain ⟨-, -, -, -, -, -, -, -, hflag⟩ := s.block.storeReg_readOnly r w
    simp [h2, hflag, hres, hro]
  · simp
  · simp [hcmd]
  · simp [(exec_flags hc).2, hcmd]

end

theorem acceptRead_illCmd (i : RegIndex) (s : State) : (acceptRead i s).block.illCmd = s.block.illCmd := by
  obtain h | ⟨-, h⟩ := acceptRead_cases i s <;> rw [h] <;> rfl

theorem acceptRead_illAcc_iff (i : RegIndex) (s : State) :
    (acceptRead i s).block.illAcc = true ↔ s.block.illAcc = true ∨ reservedIndex i = true := by
  cases hr : Reg.ofIndex i with
  | some r =>
    rw [← Reg.index_of_ofIndex hr, acceptRead_index, reservedIndex_index]
    simp
  | none =>
    have hres := (Reg.ofIndex_eq_none_iff i).1 hr
    simp [acceptRead_reserved hres, hres]

/-- Settles O24: the flags by the cases of a step, each input with its own lemma. -/
theorem statusFlagsInFull : Obligations.StatusFlagsInFull := by
  unfold Obligations.StatusFlagsInFull
  refine ⟨fun s t h => ?_, fun s w rest hp => ⟨_, _, step_of_write hp⟩, fun s rest hp => ?_,
    fun _ _ _ => exec_with_flags⟩
  · obtain ⟨hp, rfl⟩ | ⟨rest, hp, rfl⟩ | ⟨i, rest, hp, rfl⟩ | ⟨i, w, rest, hp, hw⟩ := step_cases h
    · simp only [hp, and_self]
    · simp [hp, Block.reset]
    · simp only [hp]
      exact ⟨by rw [acceptRead_illCmd, withPending_block], acceptRead_illAcc_iff i (withPending rest s)⟩
    · simp only [hp]
      exact ⟨(writeReg_illCmd_iff hw :), (writeReg_illAcc_iff hw :)⟩
  · exact ⟨s.block.statusWord, s.block.statusWord_toNat, step_of_read hp⟩

/-! ## The results of a bank -/

theorem cmd0Of_ne_pidc (opc : BitVec 8) (i : Fin 4) : cmd0Of opc ≠ some (.pidc i) := by
  unfold cmd0Of
  split <;> simp

/-- The fields of a word that decodes to `PIDC i` (30_encoding.md R102). -/
theorem fields_of_decode_pidc {w : Word} {i : Fin 4} (h : decode w = .ok (.pidc i)) :
    opcField w = 0x10#8 ∧ zeroFieldI w = 0#22 ∧ idxField w = i := by
  unfold decode at h
  split at h
  next hopc =>
    split at h
    next hzero => exact ⟨hopc, hzero, by simpa using h⟩
    next => cases h
  next =>
    split at h
    next c hc =>
      split at h
      · cases h
        exact absurd hc (cmd0Of_ne_pidc _ i)
      · cases h
    next => cases h

/-- Only the word the encoder gives `PIDC i` decodes to it (30_encoding.md R104). -/
theorem eq_encode_of_decode_pidc {w : Word} {i : Fin 4} (h : decode w = .ok (.pidc i)) : w = encode (.pidc i) := by
  obtain ⟨hopc, hzero, hidx⟩ := fields_of_decode_pidc h
  have hopc : w.toNat % 0x100 = 0x10 := by rw [← opcField_toNat, hopc]; rfl
  have hzero : w.toNat / 0x400 = 0 := by rw [← zeroFieldI_toNat, hzero]; rfl
  have hidx : w.toNat / 0x100 % 4 = i.val := by rw [← idxField_val, hidx]
  apply BitVec.eq_of_toNat_eq
  rw [encode_pidc_toNat]
  omega

/-- The registers of a bank that only `PIDC` and reset write are the same in two banks. -/
def Bank.SameResults (b b' : Bank) : Prop :=
  b'.err1 = b.err1 ∧ b'.err2 = b.err2 ∧ b'.integ = b.integ ∧ b'.out = b.out

/-- A write leaves a bank's results, or it runs the bank's `PIDC`. -/
theorem writeReg_results_cases {x : RegIndex} {w : Word} {s t : State} (i : Fin 4) (h : writeReg x w s = .next t) :
    (s.block.bank i).SameResults (t.block.bank i) ∨
      (x = 0x01#8 ∧ w = encode (.pidc i) ∧ t.block.bank i = pidCompute (s.block.bank i)) := by
  obtain ⟨-, rfl⟩ | ⟨r, -, -, rfl⟩ | ⟨-, rfl⟩ | ⟨-, -, rfl⟩ | ⟨c, hx, hd, hc⟩ := writeReg_index_cases h
  · exact .inl ⟨rfl, rfl, rfl, rfl⟩
  · obtain hb | ⟨f, -, hb⟩ := s.block.storeReg_bank r w i
    · exact .inl (hb ▸ ⟨rfl, rfl, rfl, rfl⟩)
    · exact .inl (hb ▸ (s.block.bank i).storeReg_results f w)
  · exact .inl ⟨rfl, rfl, rfl, rfl⟩
  · exact .inl ⟨rfl, rfl, rfl, rfl⟩
  · by_cases hci : c = .pidc i
    · subst hci
      exact .inr ⟨hx, eq_encode_of_decode_pidc hd, exec_pidc_bank hc⟩
    · exact .inl (exec_bank_of_ne hci hc ▸ ⟨rfl, rfl, rfl, rfl⟩)

/-- A step other than reset leaves a bank's results, or it runs the bank's `PIDC`. -/
theorem step_results_cases {s t : State} (i : Fin 4) (h : step s = .next t) (hreset : ∀ rest, s.pending ≠ .reset :: rest) :
    (s.block.bank i).SameResults (t.block.bank i) ∨
      ((∃ rest, s.pending = .write 0x01#8 (encode (.pidc i)) :: rest) ∧
        t.block.bank i = pidCompute (s.block.bank i)) := by
  obtain ⟨-, rfl⟩ | ⟨rest, hp, -⟩ | ⟨x, rest, -, rfl⟩ | ⟨x, w, rest, hp, hw⟩ := step_cases h
  · exact .inl ⟨rfl, rfl, rfl, rfl⟩
  · exact absurd hp (hreset rest)
  · obtain heq | ⟨-, heq⟩ := acceptRead_cases x (withPending rest s) <;> rw [heq] <;> exact .inl ⟨rfl, rfl, rfl, rfl⟩
  · obtain hsame | ⟨rfl, rfl, hbank⟩ := writeReg_results_cases i hw
    · exact .inl hsame
    · exact .inr ⟨⟨rest, hp⟩, hbank⟩

/-- Settles O26: a step that changes a result runs the bank's `PIDC`, whose law says which of `ERR2` and `INTEG` it keeps. -/
theorem pidStateChangesOnlyByItsCommand : Obligations.PidStateChangesOnlyByItsCommand := by
  unfold Obligations.PidStateChangesOnlyByItsCommand
  refine ⟨fun i => by rw [State.reset, Block.reset_bank]; exact ⟨rfl, rfl, rfl, rfl⟩, fun i s t h hreset => ?_⟩
  obtain ⟨herr1, herr2, hinteg, hout⟩ | ⟨⟨rest, hp⟩, hbank⟩ := step_results_cases i h hreset
  · exact ⟨fun _ => ⟨herr1, hout⟩, fun _ => herr2, fun _ => hinteg⟩
  · refine ⟨fun hne => absurd hp (hne rest), fun hlaw => ?_, fun hlaw => ?_⟩
    · rw [hbank, pidCompute_position (hlaw rest hp)]
      rfl
    · rw [hbank, pidCompute_delta (hlaw rest hp)]
      rfl

end Sys2Proof.Machine
end

section
/-! The surroundings of the block (20_memory.md R72, R73, R88, R89): what each command does to the filters and the history,
and which bus accesses are port transactions. -/

namespace Sys2Proof

/-- The checks of R73; a write of 4 bytes carries 4. -/
theorem BusAccess.wf_iff (a : BusAccess) :
    a.wf = true ↔ a.size = 4 ∧ (∀ bytes, a.data = some bytes → bytes.length = 4) ∧ a.offset % 4 = 0 ∧ a.offset < 0x400 := by
  obtain ⟨offset, size, data⟩ := a
  cases data <;> simp [wf, wide, aligned, inRange, and_assoc]

/-- An access to the `i`-th aligned word is in range. -/
theorem BusAccess.wf_four_mul (i : RegIndex) {data : Option (List Byte)}
    (h : ∀ bytes, data = some bytes → bytes.length = 4) : BusAccess.wf ⟨4 * i.toNat, 4, data⟩ = true :=
  (BusAccess.wf_iff _).2 ⟨rfl, h, Nat.mul_mod_right 4 _, Nat.mul_lt_mul_of_pos_left i.isLt (by decide)⟩

end Sys2Proof

namespace Sys2Proof.Machine

/-! ## The collaborators -/

/-- Two states agree on the filters and the history, that is, on all a command can do outside the block. -/
structure State.SameOutside (s t : State) : Prop where
  filtQ : t.filtQ = s.filtQ
  filtD : t.filtD = s.filtD
  history : t.history = s.history

section
variable {c : Instr} {s t : State}

/-- `PARK` and `UPDCUR` exchange last; before that they write registers only. -/
theorem exec_eq_exchangeFilters (hc : c = .park ∨ c = .updcur) (h : exec c s = .next t) :
    ∃ qraw draw r, t = exchangeFilters hardware qraw draw r ∧ s.SameOutside r := by
  obtain rfl | rfl := hc
  · cases (exec_park s).symm.trans h
    exact ⟨_, _, _, rfl, ⟨rfl, rfl, rfl⟩⟩
  · cases (exec_updcur s).symm.trans h
    exact ⟨_, _, _, rfl, ⟨rfl, rfl, rfl⟩⟩

/-- `ICLARKE` and `SYNTH` emit last; before that they write registers only. -/
theorem exec_eq_emitDuty (hc : c = .iclarke ∨ c = .synth) (h : exec c s = .next t) :
    ∃ u v w r, t = emitDuty u v w r ∧ s.SameOutside r := by
  obtain rfl | rfl := hc
  · cases (exec_iclarke s).symm.trans h
    exact ⟨_, _, _, _, rfl, ⟨rfl, rfl, rfl⟩⟩
  · rw [exec_eq_execOn_hardware] at h
    cases (execOn_synth hardware (execOn_ipark hardware s)).symm.trans h
    exact ⟨_, _, _, _, rfl, ⟨rfl, rfl, rfl⟩⟩

/-- The other commands write registers only. -/
theorem exec_sameOutside (hpark : c ≠ .park) (hupdcur : c ≠ .updcur) (hiclarke : c ≠ .iclarke) (hsynth : c ≠ .synth)
    (h : exec c s = .next t) : s.SameOutside t := by
  cases c with
  | nop | sincos | clarke | ipark | pidc => cases h; exact ⟨rfl, rfl, rfl⟩
  | park => exact absurd rfl hpark
  | updcur => exact absurd rfl hupdcur
  | iclarke => exact absurd rfl hiclarke
  | synth => exact absurd rfl hsynth

end

/-- Settles O25: a command ends in an exchange, ends in an emission, or writes registers only. -/
theorem onlyTheseCommandsReachTheCollaborators : Obligations.OnlyTheseCommandsReachTheCollaborators := by
  unfold Obligations.OnlyTheseCommandsReachTheCollaborators
  refine fun c s t h => ⟨fun hc => ?_, fun hc => ?_, fun hpark hupdcur hiclarke hsynth => ?_⟩
  · obtain ⟨qraw, draw, r, rfl, ⟨hfiltQ, hfiltD, hhistory⟩⟩ := exec_eq_exchangeFilters hc h
    rw [← hfiltQ, ← hfiltD, ← hhistory]
    exact ⟨qraw, draw, rfl, rfl, rfl⟩
  · obtain ⟨u, v, w, r, rfl, ⟨hfiltQ, hfiltD, hhistory⟩⟩ := exec_eq_emitDuty hc h
    rw [← hhistory]
    exact ⟨hfiltQ, hfiltD, rfl⟩
  · obtain ⟨hfiltQ, hfiltD, hhistory⟩ := exec_sameOutside hpark hupdcur hiclarke hsynth h
    exact ⟨hfiltQ, hfiltD, hhistory⟩

/-! ## The bus -/

/-- The index of the `i`-th aligned word is `i` (R72). -/
@[simp] theorem indexOfOffset_four_mul (i : RegIndex) : indexOfOffset (4 * i.toNat) = i := by
  simp [indexOfOffset]

/-- Byte `k` of a word as a number: the bits from `8*k` up. -/
theorem wordBytes_eq (w : Word) :
    wordBytes w = [BitVec.ofNat 8 w.toNat, BitVec.ofNat 8 (w.toNat / 0x100), BitVec.ofNat 8 (w.toNat / 0x10000),
      BitVec.ofNat 8 (w.toNat / 0x1000000)] := by
  simp [wordBytes, BitVec.extractLsb', Nat.shiftRight_eq_div_pow]

/-- Adjacent bytes joined again are the word. -/
theorem wordOfBytes_extractLsb' (w : Word) :
    wordOfBytes (w.extractLsb' 0 8) (w.extractLsb' 8 8) (w.extractLsb' 16 8) (w.extractLsb' 24 8) = w := by
  unfold wordOfBytes
  rw [BitVec.extractLsb'_append_extractLsb'_eq_extractLsb' (by rfl),
    BitVec.extractLsb'_append_extractLsb'_eq_extractLsb' (by rfl),
    BitVec.extractLsb'_append_extractLsb'_eq_extractLsb' (by rfl)]
  exact BitVec.extractLsb'_eq_self

theorem busTransaction_read (i : RegIndex) : busTransaction ⟨4 * i.toNat, 4, none⟩ = some (.read i) := by
  simp [busTransaction, BusAccess.wf_four_mul]

theorem busTransaction_write (i : RegIndex) (w : Word) :
    busTransaction ⟨4 * i.toNat, 4, some (wordBytes w)⟩ = some (.write i w) := by
  simp [busTransaction, BusAccess.wf_four_mul, wordBytes, wordOfBytes_extractLsb']

theorem busTransaction_of_not_wf {a : BusAccess} (h : a.wf = false) : busTransaction a = none := by
  simp [busTransaction, h]

theorem State.busAccess_of_not_wf {a : BusAccess} (h : a.wf = false) (s : State) : s.busAccess a = s := by
  simp [State.busAccess, busTransaction_of_not_wf h, State.issue]

/-- Settles O34: a well-formed access by the equation of its kind, any other by failing a check of R73. -/
theorem busAccessesBecomeTransactions : Obligations.BusAccessesBecomeTransactions := by
  unfold Obligations.BusAccessesBecomeTransactions
  refine ⟨busTransaction_read, wordBytes_eq, fun i w => ?_, fun a s ha => ?_⟩
  · rw [← wordBytes_eq]
    exact busTransaction_write i w
  · have hwf : a.wf = false := by
      rw [Bool.eq_false_iff, ne_eq, BusAccess.wf_iff]
      rintro ⟨hsize, -, haligned, hrange⟩
      omega
    exact ⟨busTransaction_of_not_wf hwf, State.busAccess_of_not_wf hwf s⟩

end Sys2Proof.Machine
end

section
/-! Decoding and encoding (30_encoding.md R101 to R106): what the decoder answers, case by case; that it inverts the encoder;
and the rows of the opcode table as masks and patterns. -/

namespace Sys2Proof

/-! ## The cases of the decoder -/

/-- The `CMD0` commands with their opcodes (R104). -/
def cmd0Opcodes : List (Nat × Instr) :=
  [(0x00, .nop), (0x01, .sincos), (0x02, .clarke), (0x03, .park), (0x04, .updcur), (0x05, .ipark), (0x06, .iclarke),
    (0x07, .synth)]

/-- `cmd0Of` is the lookup in that list. -/
theorem mem_cmd0Opcodes_of_cmd0Of {opc : BitVec 8} {i : Instr} (h : cmd0Of opc = some i) :
    (opc.toNat, i) ∈ cmd0Opcodes := by
  unfold cmd0Of at h
  split at h <;> cases h <;> simp [cmd0Opcodes, *]

theorem toNat_le_of_cmd0Of_eq_some {opc : BitVec 8} {i : Instr} (h : cmd0Of opc = some i) : opc.toNat ≤ 0x07 :=
  (by decide : ∀ p ∈ cmd0Opcodes, p.1 ≤ 0x07) _ (mem_cmd0Opcodes_of_cmd0Of h)

theorem le_toNat_of_cmd0Of_eq_none {opc : BitVec 8} (h : cmd0Of opc = none) : 0x08 ≤ opc.toNat := by
  revert opc
  decide

/-- The three ways a word is illegal (R106). -/
def IllegalFields (w : Word) : Prop :=
  (opcField w = 0x10#8 ∧ zeroFieldI w ≠ 0#22) ∨
    (opcField w ≠ 0x10#8 ∧ cmd0Of (opcField w) = none) ∨
    ((∃ i, cmd0Of (opcField w) = some i) ∧ zeroField0 w ≠ 0#24)

/-- Every word is `PIDC`, a `CMD0` command or illegal, by its fields (R102, R106). -/
theorem decode_cases (w : Word) :
    (opcField w = 0x10#8 ∧ zeroFieldI w = 0#22 ∧ decode w = .ok (.pidc (idxField w))) ∨
      (∃ i, cmd0Of (opcField w) = some i ∧ zeroField0 w = 0#24 ∧ decode w = .ok i) ∨
      ((∃ e, decode w = .error e) ∧ IllegalFields w) := by
  unfold decode IllegalFields
  by_cases hopc : opcField w = 0x10#8
  · by_cases hzero : zeroFieldI w = 0#22
    · exact .inl ⟨hopc, hzero, by simp only [hopc, hzero, if_true]⟩
    · exact .inr (.inr ⟨⟨_, by simp only [hopc, hzero, if_true, if_false]; rfl⟩, .inl ⟨hopc, hzero⟩⟩)
  · rw [if_neg hopc]
    cases hcmd : cmd0Of (opcField w) with
    | none => exact .inr (.inr ⟨⟨_, rfl⟩, .inr (.inl ⟨hopc, rfl⟩)⟩)
    | some i =>
      by_cases hzero : zeroField0 w = 0#24
      · exact .inr (.inl ⟨i, rfl, hzero, by simp only [hzero, if_true]⟩)
      · exact .inr (.inr ⟨⟨_, by simp only [hzero, if_false]; rfl⟩, .inr (.inr ⟨⟨i, rfl⟩, hzero⟩)⟩)

/-! ## The decoder and the encoder -/

theorem decode_encode (i : Instr) : decode (encode i) = .ok i := by
  cases i with
  | pidc idx => fin_cases idx <;> rfl
  | _ => rfl

theorem encode_toNat_of_mem_cmd0Opcodes : ∀ p ∈ cmd0Opcodes, (encode p.2).toNat = p.1 := by decide

/-- A word whose `zero` field is 0 and whose opcode is a `CMD0` command's is the word the encoder gives it (R101, R104). -/
theorem eq_encode_of_cmd0Of {w : Word} {i : Instr} (hcmd : cmd0Of (opcField w) = some i) (hzero : zeroField0 w = 0#24) :
    w = encode i := by
  have hhigh : w.toNat / 0x100 = 0 := by rw [← zeroField0_toNat, hzero]; rfl
  have hword : (encode i).toNat = w.toNat % 0x100 := by
    rw [← opcField_toNat]
    exact encode_toNat_of_mem_cmd0Opcodes _ (mem_cmd0Opcodes_of_cmd0Of hcmd)
  apply BitVec.eq_of_toNat_eq
  omega

theorem eq_encode_of_decode {w : Word} {i : Instr} (h : decode w = .ok i) : w = encode i := by
  obtain ⟨-, -, hd⟩ | ⟨c, hcmd, hzero, hd⟩ | ⟨⟨e, hd⟩, -⟩ := decode_cases w
  · cases hd.symm.trans h
    exact Machine.eq_encode_of_decode_pidc hd
  · cases hd.symm.trans h
    exact eq_encode_of_cmd0Of hcmd hzero
  · cases hd.symm.trans h

/-- Settles O1: the encoder's word decodes to its command, and the fields of a word that decodes fix all its bits. -/
theorem decodeInvertsEncodeOnAllWords : Obligations.DecodeInvertsEncodeOnAllWords := by
  unfold Obligations.DecodeInvertsEncodeOnAllWords
  exact fun w i => ⟨eq_encode_of_decode, fun h => h ▸ decode_encode i⟩

/-! ## The rows of the opcode table -/

theorem exists_row_of_mem_opcodeTable {r : OpcodeRow} (hr : r ∈ opcodeTable) : ∃ i : Instr, r = i.row := by
  have hmap : opcodeTable =
      [.nop, .sincos, .clarke, .park, .updcur, .ipark, .iclarke, .synth, .pidc 0].map Instr.row := rfl
  obtain ⟨i, -, hi⟩ := List.mem_map.1 (hmap ▸ hr)
  exact ⟨i, hi.symm⟩

/-- A mask leaves a field that it covers. -/
theorem extractLsb'_and_of_allOnes {w m : Word} {start len : Nat} (h : m.extractLsb' start len = BitVec.allOnes len) :
    (w &&& m).extractLsb' start len = w.extractLsb' start len := by
  rw [BitVec.extractLsb'_and, h, BitVec.and_allOnes]

/-- The mask of `PIDC` leaves out `idx` only, so its row fixes the opcode and the `zero` field (R101, R104). -/
theorem decode_of_matches_pidc_row {w : Word} (h : w &&& 0xFFFFFCFF#32 = 0x00000010#32) :
    decode w = .ok (.pidc (idxField w)) := by
  have hopc : opcField w = 0x10#8 := by
    calc opcField w = opcField (w &&& 0xFFFFFCFF#32) := (extractLsb'_and_of_allOnes (by decide)).symm
      _ = 0x10#8 := by rw [h]; rfl
  have hzero : zeroFieldI w = 0#22 := by
    calc zeroFieldI w = zeroFieldI (w &&& 0xFFFFFCFF#32) := (extractLsb'_and_of_allOnes (by decide)).symm
      _ = 0#22 := by rw [h]; rfl
  simp only [decode, hopc, hzero, if_true]

/-- A word that matches a command's row decodes to a command of that row, the same one but for `PIDC`'s index. -/
theorem decode_of_matches_row {w : Word} {i : Instr} (h : w &&& i.row.mask = i.row.pattern) :
    ∃ j, i.row = j.row ∧ decode w = .ok j := by
  cases i with
  | pidc => exact ⟨.pidc (idxField w), rfl, decode_of_matches_pidc_row h⟩
  | nop | sincos | clarke | park | updcur | ipark | iclarke | synth =>
    cases BitVec.and_allOnes.symm.trans h
    exact ⟨_, rfl, rfl⟩

theorem encode_matches_row (i : Instr) : encode i &&& i.row.mask = i.row.pattern := by
  cases i with
  | pidc idx => exact beq_iff_eq.1 (Laws.EncodesItsRow.pidc idx).2
  | _ => rfl

/-- A word matches a row of the table exactly when it decodes to a command of that row (R102). -/
theorem matches_row_iff {r : OpcodeRow} (hr : r ∈ opcodeTable) (w : Word) :
    w &&& r.mask = r.pattern ↔ ∃ i, r = i.row ∧ decode w = .ok i := by
  constructor
  · intro h
    obtain ⟨i, rfl⟩ := exists_row_of_mem_opcodeTable hr
    exact decode_of_matches_row h
  · rintro ⟨i, rfl, hd⟩
    rw [eq_encode_of_decode hd]
    exact encode_matches_row i

/-- The clauses of R106 with the fields as numbers. -/
theorem IllegalFields.toNat {w : Word} (h : IllegalFields w) :
    (0x08 ≤ w.toNat % 0x100 ∧ w.toNat % 0x100 ≤ 0x0F) ∨ 0x11 ≤ w.toNat % 0x100 ∨
      (w.toNat % 0x100 ≤ 0x07 ∧ w.toNat / 0x100 ≠ 0) ∨ (w.toNat % 0x100 = 0x10 ∧ w.toNat / 0x400 ≠ 0) := by
  simp only [IllegalFields, ne_eq, ← BitVec.toNat_inj, zeroField0_toNat, zeroFieldI_toNat] at h
  rw [← opcField_toNat]
  obtain ⟨hopc, hzero⟩ | ⟨hopc, hcmd⟩ | ⟨⟨i, hcmd⟩, hzero⟩ := h
  · exact .inr (.inr (.inr ⟨hopc, hzero⟩))
  · have hle := le_toNat_of_cmd0Of_eq_none hcmd
    have hne : (opcField w).toNat ≠ 0x10 := hopc
    omega
  · exact .inr (.inr (.inl ⟨toNat_le_of_cmd0Of_eq_some hcmd, hzero⟩))

/-- The decoder by the fields as numbers (R102). -/
theorem decode_cases_toNat (w : Word) :
    (w.toNat % 0x100 = 0x10 ∧ w.toNat / 0x400 = 0 ∧
        ∃ idx : Fin 4, idx.val = w.toNat / 0x100 % 4 ∧ decode w = .ok (.pidc idx)) ∨
      (w.toNat / 0x100 = 0 ∧ ∃ p ∈ cmd0Opcodes, w.toNat % 0x100 = p.1 ∧ decode w = .ok p.2) ∨
      ((∃ e, decode w = .error e) ∧ IllegalFields w) := by
  obtain ⟨hopc, hzero, hd⟩ | ⟨i, hcmd, hzero, hd⟩ | h := decode_cases w
  · rw [← opcField_toNat, ← zeroFieldI_toNat, hopc, hzero]
    exact .inl ⟨rfl, rfl, idxField w, idxField_val w, hd⟩
  · rw [← opcField_toNat, ← zeroField0_toNat, hzero]
    exact .inr (.inl ⟨rfl, _, mem_cmd0Opcodes_of_cmd0Of hcmd, rfl, hd⟩)
  · exact .inr (.inr h)

/-- Settles O2: the fields by the cases of the decoder; the rows because matching one is decoding to a command of it. -/
theorem decodingFollowsFieldsAndRows : Obligations.DecodingFollowsFieldsAndRows := by
  unfold Obligations.DecodingFollowsFieldsAndRows
  refine ⟨fun w => ?_, fun w i hd r hr => ?_, fun w e hd r hr h => ?_, fun w r hr r' hr' h h' => ?_⟩
  · exact (decode_cases_toNat w).imp_right (.imp_right (.imp_right IllegalFields.toNat))
  · simp [matches_row_iff hr, hd]
  · obtain ⟨i, -, hi⟩ := (matches_row_iff hr w).1 h
    cases hd.symm.trans hi
  · obtain ⟨i, rfl, hi⟩ := (matches_row_iff hr w).1 h
    obtain ⟨j, rfl, hj⟩ := (matches_row_iff hr' w).1 h'
    cases hi.symm.trans hj
    rfl

/-- Settles O3: each of the six is the encoder's word of its command. -/
theorem sampleWordsDecode : Obligations.SampleWordsDecode := by
  unfold Obligations.SampleWordsDecode
  exact ⟨decode_encode .nop, decode_encode .sincos, decode_encode .park, decode_encode .synth, decode_encode (.pidc 2),
    decode_encode (.pidc 3)⟩

end Sys2Proof
end

section
/-! Rounding as a statement about values (40_numerics.md R122): the laws of `roundMag` in integers, carried over to
`val`. The classes of words and their values come first. -/

namespace Sys2Proof.Machine

/-! ## The classes exclude one another -/

theorem isNaN_of_isFinite {a : Word} (h : isFinite a = true) : isNaN a = false := ((isFinite_iff a).1 h).1

theorem isInf_of_isFinite {a : Word} (h : isFinite a = true) : isInf a = false := ((isFinite_iff a).1 h).2

theorem isNaN_of_isInf {a : Word} (h : isInf a = true) : isNaN a = false := by simp [isNaN, ((isInf_eq a).1 h).2]

theorem isZero_of_isInf {a : Word} (h : isInf a = true) : isZero a = false := by simp [isZero, ((isInf_eq a).1 h).1]

theorem isFinite_of_isZero {a : Word} (h : isZero a = true) : isFinite a = true := by
  simp [isFinite, ((isZero_eq a).1 h).1]

theorem magOf_eq_zero_iff (a : Word) : magOf a = 0 ↔ isZero a = true := by
  rw [isZero_eq, magOf]
  split <;> simp [*]

theorem scaled_of_isZero {a : Word} (h : isZero a = true) : scaled a = 0 := by
  simp [scaled, (magOf_eq_zero_iff a).2 h]

/-! ## The zero and the infinity of a sign -/

@[simp] theorem infOf_false : infOf false = 0x7F800000#32 := by decide

@[simp] theorem infOf_true : infOf true = 0xFF800000#32 := by decide

/-- The exclusive or of two signs is plus exactly when they agree. -/
theorem apply_xor_eq_ite {α : Type} (f : Bool → α) (s t : Bool) : f (s ^^ t) = if s = t then f false else f true := by
  cases s <;> cases t <;> rfl

theorem infOf_xor (s t : Bool) : infOf (s ^^ t) = if s = t then 0x7F800000#32 else 0xFF800000#32 := by
  rw [apply_xor_eq_ite infOf, infOf_false, infOf_true]

theorem zeroOf_xor (s t : Bool) : zeroOf (s ^^ t) = if s = t then 0#32 else 0x80000000#32 := by
  rw [apply_xor_eq_ite zeroOf, zeroOf_false, zeroOf_true]

/-! ## Rounding as a statement about values (R122) -/

theorem unitsPerOne_ne_zero : unitsPerOne ≠ 0 := by
  unfold unitsPerOne
  positivity

/-- `val_eq_scaled` with the unit by its name. -/
theorem val_eq_div_unitsPerOne (b : Word) : val b = scaled b / unitsPerOne := by
  rw [val_eq_scaled, unitsPerOne]
  push_cast
  rfl

theorem round32_zero (den : Nat) (z : Bool) : round32 0 den z = zeroOf z := rfl

section
variable {num : Int} {den : Nat} {z : Bool} (h0 : num ≠ 0)
include h0

theorem round32_of_ne_zero :
    round32 num den z = packWord (decide (num < 0)) (roundMag (num.natAbs * unitsPerOne) den) := if_neg h0

theorem signOf_round32 : signOf (round32 num den z) = decide (num < 0) := by
  rw [round32_of_ne_zero h0, signOf_packWord (roundMag_lt _ _)]

/-- The rounded magnitude under the sign of the number. -/
theorem scaled_round32 :
    scaled (round32 num den z) = num.sign * magBits (roundMag (num.natAbs * unitsPerOne) den) := by
  rw [scaled, signOf_round32 h0, round32_of_ne_zero h0, magOf_packWord (roundMag_lt _ _)]
  rcases lt_or_gt_of_ne h0 with h | h
  · simp [h, Int.sign_eq_neg_one_of_neg h]
  · simp [h.not_gt, Int.sign_eq_one_of_pos h]

theorem getLsbD_zero_round32 (h : roundMag (num.natAbs * unitsPerOne) den % 2 = 0) :
    (round32 num den z).getLsbD 0 = false := by
  rw [round32_of_ne_zero h0, BitVec.getLsbD, Nat.testBit_zero, packWord_toNat (roundMag_lt _ _)]
  split <;> simp <;> omega

theorem isInf_round32_iff :
    isInf (round32 num den z) = true ↔ roundMag (num.natAbs * unitsPerOne) den = 0x7F800000 := by
  have hle := roundMag_le (num.natAbs * unitsPerOne) den
  rw [round32_of_ne_zero h0, isInf_eq, expOf_packWord (roundMag_lt _ _), fracOf_packWord (roundMag_lt _ _)]
  omega

/-- In units of 2^-149 divided by `den`, the distance from the number may be taken on the number's side of zero. -/
theorem abs_val_sub (hd : den ≠ 0) (w : Word) :
    |val w - (num : ℚ) / den| =
      (|num.sign * scaled w * den - (num.natAbs * unitsPerOne : Nat)| : Int) / ((unitsPerOne : ℚ) * den) := by
  have hd' : (den : ℚ) ≠ 0 := by exact_mod_cast hd
  have hu : (unitsPerOne : ℚ) ≠ 0 := by exact_mod_cast unitsPerOne_ne_zero
  have hside : num.sign * scaled w * den - (num.natAbs * unitsPerOne : Nat) =
      num.sign * (scaled w * den - num * unitsPerOne) := by
    rw [Nat.cast_mul, Int.natCast_natAbs, ← Int.sign_mul_self_eq_abs]
    ring
  have hval : val w - (num : ℚ) / den = (scaled w * den - num * unitsPerOne : Int) / (unitsPerOne * den) := by
    rw [val_eq_div_unitsPerOne]
    push_cast
    field_simp
  rw [hside, abs_mul, Int.abs_sign_of_ne_zero h0, one_mul, hval, abs_div,
    abs_of_nonneg (by positivity : (0 : ℚ) ≤ unitsPerOne * den), Int.cast_abs]

/-- The overflow threshold of R122. -/
theorem isInf_round32_iff_threshold (hd : den ≠ 0) :
    isInf (round32 num den z) = true ↔ (2 : ℚ) ^ 128 - 2 ^ 103 ≤ |(num : ℚ) / den| := by
  have hpos : (0 : ℚ) < den := by exact_mod_cast Nat.pos_of_ne_zero hd
  have hunits : (2 ^ 25 - 1) * 2 ^ 252 * den = (2 ^ 25 - 1) * 2 ^ 103 * den * unitsPerOne := by
    rw [unitsPerOne]
    ring
  have hthreshold : ((2 : ℚ) ^ 128 - 2 ^ 103) * den = ((2 ^ 25 - 1) * 2 ^ 103 * den : Nat) := by
    push_cast
    ring
  rw [isInf_round32_iff h0, roundMag_overflow (Nat.pos_of_ne_zero hd), hunits,
    Nat.mul_le_mul_right_iff (Nat.pos_of_ne_zero unitsPerOne_ne_zero), abs_div, abs_of_pos hpos, le_div_iff₀ hpos,
    hthreshold, ← Int.cast_abs, ← Nat.cast_natAbs, Nat.cast_le]

/-- A finite result is a nearest finite word, and even where another value is as near. -/
theorem round32_nearest (hd : den ≠ 0) (hf : isFinite (round32 num den z) = true) (y : Word) :
    |val (round32 num den z) - (num : ℚ) / den| ≤ |val y - (num : ℚ) / den| ∧
      (val y ≠ val (round32 num den z) →
        |val (round32 num den z) - (num : ℚ) / den| = |val y - (num : ℚ) / den| →
        (round32 num den z).getLsbD 0 = false) := by
  have hscale : (0 : ℚ) < unitsPerOne * den := by
    have := Nat.pos_of_ne_zero unitsPerOne_ne_zero
    have := Nat.pos_of_ne_zero hd
    positivity
  have hs : num.sign = 1 ∨ num.sign = -1 :=
    (lt_or_gt_of_ne h0).symm.imp Int.sign_eq_one_of_pos Int.sign_eq_neg_one_of_neg
  have hmag : num.sign * scaled (round32 num den z) = magBits (roundMag (num.natAbs * unitsPerOne) den) := by
    rw [scaled_round32 h0]
    obtain hs | hs := hs <;> simp [hs]
  have hy : num.sign * scaled y = magOf y ∨ num.sign * scaled y = -(magOf y : Int) := by
    obtain hs | hs := hs <;> obtain hy | hy := scaled_cases y <;> simp [hs, hy]
  obtain ⟨hle, htie⟩ := round_nearest_scaled (Nat.pos_of_ne_zero hd) (isFinite_round h0 hf) y _ hy
  rw [← hmag] at hle htie
  rw [abs_val_sub h0 hd, abs_val_sub h0 hd, div_le_div_iff_of_pos_right hscale, div_left_inj' hscale.ne', Int.cast_le,
    Int.cast_inj]
  refine ⟨hle, fun hne heq => getLsbD_zero_round32 h0 (htie (fun h => hne ?_) heq)⟩
  have hsign : num.sign ≠ 0 := Int.sign_eq_zero_iff_zero.not.2 h0
  rw [val_eq_scaled, val_eq_scaled, mul_left_cancel₀ hsign h]

end

/-- Settles O39: the threshold and the nearest word are those of the magnitudes in units of 2^-149. -/
theorem roundingIsNearestTiesToEven : Obligations.RoundingIsNearestTiesToEven := by
  unfold Obligations.RoundingIsNearestTiesToEven
  refine ⟨fun den z => ?_, fun num den z h0 hd => ?_⟩
  · cases z
    · exact zeroOf_false
    · exact zeroOf_true
  · exact ⟨isNaN_round32 num den z, signOf_round32 h0, isInf_round32_iff_threshold h0 hd,
      fun hf y _ => round32_nearest h0 hd hf y⟩

end Sys2Proof.Machine
end

section
/-! The arithmetic primitives case by case (40_numerics.md R124 to R127): one lemma per case of a primitive, from the
classes of its operands. -/

namespace Sys2Proof.Machine

/-! ## Sums (R125) -/

section
variable {a b : Word}

theorem fadd_of_isNaN (h : isNaN a = true ∨ isNaN b = true) : fadd a b = canonicalNaN := by
  simp [fadd, h]

theorem fsub_of_isNaN (h : isNaN a = true ∨ isNaN b = true) : fsub a b = canonicalNaN := by
  simp [fsub, h]

theorem fsub_eq_fadd_fneg (ha : isNaN a = false) (hb : isNaN b = false) : fsub a b = fadd a (fneg b) := by
  simp [fsub, ha, hb]

theorem fadd_of_isInf (ha : isInf a = true) (hb : isInf b = true) :
    fadd a b = if signOf a = signOf b then a else canonicalNaN := by
  simp [fadd, isNaN_of_isInf ha, isNaN_of_isInf hb, ha, hb]

theorem fadd_of_isInf_left (ha : isInf a = true) (hbn : isNaN b = false) (hb : isInf b = false) : fadd a b = a := by
  simp [fadd, isNaN_of_isInf ha, ha, hbn, hb]

theorem fadd_of_isInf_right (han : isNaN a = false) (ha : isInf a = false) (hb : isInf b = true) : fadd a b = b := by
  simp [fadd, isNaN_of_isInf hb, hb, han, ha]

theorem fadd_of_isFinite (ha : isFinite a = true) (hb : isFinite b = true) :
    fadd a b = if (isZero a && isZero b) = true then (if signOf a = signOf b then a else 0#32)
      else round32 (scaled a + scaled b) unitsPerOne false := by
  simp [fadd, isNaN_of_isFinite ha, isNaN_of_isFinite hb, isInf_of_isFinite ha, isInf_of_isFinite hb]

end

/-- Settles O40, by the classes of the operands; two finite words add as integers in units of 2^-149. -/
theorem sumsFollowTheCases : Obligations.SumsFollowTheCases := by
  unfold Obligations.SumsFollowTheCases
  refine ⟨fun a b h => ⟨fadd_of_isNaN h, fsub_of_isNaN h⟩, fun a b han hbn => ⟨fsub_eq_fadd_fneg han hbn,
    fadd_of_isInf, fun ha hb => fadd_of_isInf_left ha hbn hb, fun ha hb => fadd_of_isInf_right han ha hb, fun ha hb => ?_,
    fun ha hb hz => ⟨scaled a + scaled b, unitsPerOne, unitsPerOne_ne_zero, ?_, ?_⟩⟩⟩
  · rw [fadd_of_isFinite (isFinite_of_isZero ha) (isFinite_of_isZero hb), ha, hb]
    rfl
  · rw [val_eq_div_unitsPerOne, val_eq_div_unitsPerOne, ← add_div, Int.cast_add]
  · rw [fadd_of_isFinite ha hb, hz]
    rfl

/-! ## Products (R126) -/

section
variable {a b : Word}

theorem fmul_of_isNaN (h : isNaN a = true ∨ isNaN b = true) : fmul a b = canonicalNaN := by
  simp [fmul, h]

theorem fmul_of_isInf_isZero (ha : isInf a = true) (hb : isZero b = true) : fmul a b = canonicalNaN := by
  simp [fmul, ha, hb]

theorem fmul_of_isZero_isInf (ha : isZero a = true) (hb : isInf b = true) : fmul a b = canonicalNaN := by
  simp [fmul, ha, hb]

theorem fmul_of_isInf (han : isNaN a = false) (hbn : isNaN b = false) (haz : isZero a = false) (hbz : isZero b = false)
    (h : isInf a = true ∨ isInf b = true) : fmul a b = infOf (signOf a ^^ signOf b) := by
  simp [fmul, han, hbn, haz, hbz, h]

theorem fmul_of_isFinite (ha : isFinite a = true) (hb : isFinite b = true) :
    fmul a b = round32 (scaled a * scaled b) (unitsPerOne * unitsPerOne) (signOf a ^^ signOf b) := by
  simp [fmul, isNaN_of_isFinite ha, isNaN_of_isFinite hb, isInf_of_isFinite ha, isInf_of_isFinite hb]

end

/-- Settles O41, by the classes of the operands; two finite words multiply as integers, in units of 2^-298. -/
theorem productsFollowTheCases : Obligations.ProductsFollowTheCases := by
  unfold Obligations.ProductsFollowTheCases
  refine fun a b => ⟨fmul_of_isNaN, fmul_of_isInf_isZero, fmul_of_isZero_isInf, fun han hbn h haz hbz => ?_, fun ha hb =>
    ⟨scaled a * scaled b, unitsPerOne * unitsPerOne, mul_ne_zero unitsPerOne_ne_zero unitsPerOne_ne_zero, ?_,
      fmul_of_isFinite ha hb⟩⟩
  · rw [fmul_of_isInf han hbn haz hbz h, infOf_xor]
  · rw [val_eq_div_unitsPerOne, val_eq_div_unitsPerOne, div_mul_div_comm, Int.cast_mul, Nat.cast_mul]

/-! ## Quotients (R127) -/

section
variable {a b : Word}

theorem fdiv_of_isNaN (h : isNaN a = true ∨ isNaN b = true) : fdiv a b = canonicalNaN := by
  simp [fdiv, h]

theorem fdiv_of_isInf (ha : isInf a = true) (hb : isInf b = true) : fdiv a b = canonicalNaN := by
  simp [fdiv, ha, hb]

theorem fdiv_of_isZero (ha : isZero a = true) (hb : isZero b = true) : fdiv a b = canonicalNaN := by
  simp [fdiv, ha, hb]

theorem fdiv_of_isInf_isFinite (ha : isInf a = true) (hb : isFinite b = true) :
    fdiv a b = infOf (signOf a ^^ signOf b) := by
  simp [fdiv, isNaN_of_isInf ha, isNaN_of_isFinite hb, isInf_of_isFinite hb, isZero_of_isInf ha, ha]

theorem fdiv_of_isFinite_isInf (ha : isFinite a = true) (hb : isInf b = true) :
    fdiv a b = zeroOf (signOf a ^^ signOf b) := by
  simp [fdiv, isNaN_of_isFinite ha, isNaN_of_isInf hb, isInf_of_isFinite ha, isZero_of_isInf hb, hb]

theorem fdiv_of_isFinite_isZero (ha : isFinite a = true) (haz : isZero a = false) (hb : isZero b = true) :
    fdiv a b = infOf (signOf a ^^ signOf b) := by
  have hbf := isFinite_of_isZero hb
  simp [fdiv, isNaN_of_isFinite ha, isNaN_of_isFinite hbf, isInf_of_isFinite ha, isInf_of_isFinite hbf, haz, hb]

theorem fdiv_of_isFinite (ha : isFinite a = true) (hb : isFinite b = true) (hbz : isZero b = false) :
    fdiv a b = round32 (if signOf b then -scaled a else scaled a) (magOf b) (signOf a ^^ signOf b) := by
  simp [fdiv, isNaN_of_isFinite ha, isNaN_of_isFinite hb, isInf_of_isFinite ha, isInf_of_isFinite hb, hbz]

end

/-- The sign of the divisor moved to the dividend. -/
theorem div_magOf_eq (a b : Word) :
    ((if signOf b then -scaled a else scaled a : Int) : ℚ) / (magOf b : ℚ) = val a / val b := by
  rw [val_eq_scaled, val_eq_scaled, div_div_div_cancel_right₀ (by positivity)]
  cases hb : signOf b
  · simp [scaled, hb]
  · simp [scaled, hb, neg_div, div_neg]

/-- Settles O42, by the classes of the operands; in a quotient of finite words the units of 2^-149 cancel. -/
theorem quotientsFollowTheCases : Obligations.QuotientsFollowTheCases := by
  unfold Obligations.QuotientsFollowTheCases
  refine fun a b => ⟨fdiv_of_isNaN, fdiv_of_isInf, fdiv_of_isZero, fun ha hb => ?_, fun ha hb => ?_, fun ha haz hb => ?_,
    fun ha hb hbz => ⟨_, magOf b, ?_, div_magOf_eq a b, fdiv_of_isFinite ha hb hbz⟩⟩
  · rw [fdiv_of_isInf_isFinite ha hb, infOf_xor]
  · rw [fdiv_of_isFinite_isInf ha hb, zeroOf_xor]
  · rw [fdiv_of_isFinite_isZero ha haz hb, infOf_xor]
  · rw [ne_eq, magOf_eq_zero_iff, hbz]
    decide

/-! ## NaN results (R124) -/

theorem canonical_infOf (s : Bool) : canonical (infOf s) := canonical_of_not_isNaN (isNaN_packWord (le_refl _))

theorem canonical_zeroOf (s : Bool) : canonical (zeroOf s) := canonical_of_not_isNaN (isNaN_packWord (by decide))

theorem canonical_round32 (num : Int) (den : Nat) (z : Bool) : canonical (round32 num den z) :=
  canonical_of_not_isNaN (isNaN_round32 num den z)

theorem canonical_fmul (a b : Word) : canonical (fmul a b) := by
  unfold fmul
  dsimp only
  split_ifs
  · exact canonical_canonicalNaN
  · exact canonical_canonicalNaN
  · exact canonical_infOf _
  · exact canonical_round32 _ _ _

theorem canonical_fdiv (a b : Word) : canonical (fdiv a b) := by
  unfold fdiv
  dsimp only
  split_ifs
  · exact canonical_canonicalNaN
  · exact canonical_canonicalNaN
  · exact canonical_infOf _
  · exact canonical_zeroOf _
  · exact canonical_infOf _
  all_goals exact canonical_round32 _ _ _

theorem isInf_fneg (a : Word) : isInf (fneg a) = isInf a := by simp [isInf]

/-- Settles O43: each primitive's NaN operand and invalid cases, and that no branch of it answers another NaN. -/
theorem naNResultsAreCanonical : Obligations.NaNResultsAreCanonical := by
  unfold Obligations.NaNResultsAreCanonical
  refine ⟨fun op hop a b => ?_, fun a b => ⟨fun ha hb hs => ?_, fun ha hb hs => ?_,
    fun ha hb => ⟨fmul_of_isInf_isZero ha hb, fmul_of_isZero_isInf hb ha⟩, fdiv_of_isInf, fdiv_of_isZero⟩, fun _ => rfl⟩
  · simp only [List.mem_cons, List.not_mem_nil, or_false] at hop
    obtain rfl | rfl | rfl | rfl := hop
    · exact ⟨fadd_of_isNaN, canonical_fadd a b⟩
    · exact ⟨fsub_of_isNaN, canonical_fsub a b⟩
    · exact ⟨fmul_of_isNaN, canonical_fmul a b⟩
    · exact ⟨fdiv_of_isNaN, canonical_fdiv a b⟩
  · rw [fadd_of_isInf ha hb, if_neg hs]
    rfl
  · rw [fsub_eq_fadd_fneg (isNaN_of_isInf ha) (isNaN_of_isInf hb), fadd_of_isInf ha ((isInf_fneg b).trans hb),
      signOf_fneg, hs, if_neg (Bool.not_ne_self _).symm]
    rfl

end Sys2Proof.Machine
end

section
/-! The order of words, `fromQ30` and the clamp (40_numerics.md R129, R132, R133). -/

namespace Sys2Proof.Machine

/-! ## The order (R129) -/

theorem flt_iff (a b : Word) : flt a b = true ↔ isNaN a = false ∧ isNaN b = false ∧ scaled a < scaled b := by
  simp [flt, and_assoc]

theorem flt_of_isNaN {a b : Word} (h : isNaN a = true ∨ isNaN b = true) : flt a b = false := by
  rcases h with h | h <;> simp [flt, h]

theorem flt_of_not_isNaN {a b : Word} (ha : isNaN a = false) (hb : isNaN b = false) :
    flt a b = decide (scaled a < scaled b) := by
  simp [flt, ha, hb]

theorem scaled_lt_iff (a b : Word) : scaled a < scaled b ↔ val a < val b := by
  rw [val_eq_scaled, val_eq_scaled, div_lt_div_iff_of_pos_right (by positivity), Int.cast_lt]

theorem flt_iff_val {a b : Word} (ha : isFinite a = true) (hb : isFinite b = true) : flt a b = true ↔ val a < val b := by
  rw [flt_of_not_isNaN (isNaN_of_isFinite ha) (isNaN_of_isFinite hb), decide_eq_true_iff, scaled_lt_iff]

theorem scaled_infOf (s : Bool) : scaled (infOf s) = if s then -(magBits 0x7F800000 : Int) else magBits 0x7F800000 := by
  have hm : 0x7F800000 < 2 ^ 31 := by norm_num
  rw [scaled, infOf, signOf_packWord hm, magOf_packWord hm]

/-- The model's magnitude of an infinity is above every finite one (R129). -/
theorem magOf_lt_of_isFinite {a : Word} (h : isFinite a = true) : magOf a < magBits 0x7F800000 := by
  have he := (isFinite_eq a).1 h
  have hlt := expOf_lt a
  have hf := fracOf_lt a
  rw [magOf_eq_magBits]
  exact magBits_strictMono (by omega)

theorem scaled_bounds_of_isFinite {a : Word} (h : isFinite a = true) :
    -(magBits 0x7F800000 : Int) < scaled a ∧ scaled a < magBits 0x7F800000 := by
  have hm := magOf_lt_of_isFinite h
  obtain hs | hs := scaled_cases a <;> omega

/-- Settles O44: the values of finite words, and the infinities beyond them, are ordered as `scaled` orders them. -/
theorem lessThanIsTheOrderOfValues : Obligations.LessThanIsTheOrderOfValues := by
  unfold Obligations.LessThanIsTheOrderOfValues
  have hpos : scaled 0x7F800000#32 = magBits 0x7F800000 := scaled_infOf false
  have hneg : scaled 0xFF800000#32 = -(magBits 0x7F800000 : Int) := scaled_infOf true
  have hposn : isNaN 0x7F800000#32 = false := by decide
  have hnegn : isNaN 0xFF800000#32 = false := by decide
  refine ⟨fun a b => flt_iff_val, fun a ha => ?_, ?_, ?_, ?_, ?_, fun a b => flt_of_isNaN, fun _ _ => rfl⟩
  · have han := isNaN_of_isFinite ha
    obtain ⟨hlo, hhi⟩ := scaled_bounds_of_isFinite ha
    simp only [flt_of_not_isNaN, han, hposn, hnegn, hpos, hneg, decide_eq_true_eq, decide_eq_false_iff_not]
    omega
  · have hinf : 0 < magBits 0x7F800000 := (Nat.zero_le _).trans_lt (magBits_strictMono (m := 0) (by decide))
    simpa [flt_of_not_isNaN, hposn, hnegn, hpos, hneg] using hinf
  all_goals
    simp [flt_of_not_isNaN, hposn, hnegn, hpos, hneg]

/-! ## `fromQ30` (R133) -/

/-- A significand up to 2^24 at any exponent is the magnitude of some bits. -/
theorem exists_magBits_eq {k : Nat} (sh : Nat) (hk : k ≤ 2 ^ 24) : ∃ m, magBits m = k * 2 ^ sh := by
  induction sh generalizing k with
  | zero => exact ⟨_, magBits_significand hk (.inl rfl)⟩
  | succ sh ih =>
    by_cases h : 2 ^ 23 ≤ k
    · exact ⟨_, magBits_significand hk (.inr h)⟩
    · obtain ⟨m, hm⟩ := ih (k := 2 * k) (by omega)
      exact ⟨m, by rw [hm, pow_succ]; ring⟩

theorem lt_of_magBits_lt {m m' : Nat} (h : magBits m < magBits m') : m < m' := by
  by_contra hge
  rcases (not_lt.1 hge).eq_or_lt with rfl | hlt
  · exact h.false
  · exact (magBits_strictMono hlt).asymm h

/-- A short integer times a power of two, below the infinity, is the value of a finite word in units of 2^-149. -/
theorem exists_isFinite_scaled_eq {m : Int} {sh : Nat} (hm : m.natAbs ≤ 2 ^ 24)
    (h : m.natAbs * 2 ^ sh < magBits 0x7F800000) : ∃ w, isFinite w = true ∧ scaled w = m * 2 ^ sh := by
  obtain ⟨n, hn⟩ := exists_magBits_eq sh hm
  have hlt : n < 0x7F800000 := lt_of_magBits_lt (hn ▸ h)
  have hlt31 : n < 2 ^ 31 := by omega
  refine ⟨packWord (decide (m < 0)) n, ?_, ?_⟩
  · rw [isFinite_eq, expOf_packWord hlt31]
    omega
  · rw [scaled, signOf_packWord hlt31, magOf_packWord hlt31, hn]
    push_cast
    by_cases hneg : m < 0
    · simp [hneg, abs_of_neg hneg]
    · simp [hneg, abs_of_nonneg (not_lt.1 hneg)]

/-- Rounding is exact on the value of a finite word, zero among them. -/
theorem val_round32_of_representable {num : Int} {den : Nat} {w : Word} (hd : den ≠ 0) (hw : isFinite w = true)
    (h : num * (unitsPerOne : Int) = scaled w * den) (z : Bool) : val (round32 num den z) = (num : ℚ) / den := by
  by_cases h0 : num = 0
  · subst h0
    have hz : isZero (zeroOf z) = true := by revert z; decide
    rw [round32_zero, val_eq_scaled, scaled_of_isZero hz, Int.cast_zero, zero_div, zero_div]
  · have hu : (unitsPerOne : ℚ) ≠ 0 := by exact_mod_cast unitsPerOne_ne_zero
    have hd' : (den : ℚ) ≠ 0 := by exact_mod_cast hd
    rw [round32_exact hw hd h0 h, val_eq_div_unitsPerOne, div_eq_div_iff hu hd']
    exact_mod_cast h.symm

theorem val_fromQ30 {m : Int} {k : Nat} (hm : |m| ≤ 2 ^ 24) (h : |m * 2 ^ k| ≤ 2 ^ 30) :
    val (fromQ30 (m * 2 ^ k)) = ((m * 2 ^ k : Int) : ℚ) / 2 ^ 30 := by
  have hinf : magBits 0x7F800000 = 2 ^ 24 * 2 ^ 253 :=
    magBits_significand (sh := 253) (k := 2 ^ 24) (le_refl _) (.inr (by norm_num))
  have hsmall : m.natAbs * 2 ^ (k + 119) < magBits 0x7F800000 := by
    have hk : m.natAbs * 2 ^ k ≤ 2 ^ 30 := by
      zify
      rwa [abs_mul, abs_pow] at h
    rw [hinf, pow_add, ← mul_assoc]
    omega
  obtain ⟨w, hw, hs⟩ := exists_isFinite_scaled_eq (by zify; exact hm) hsmall
  have hden : (2 ^ 30 : Nat) ≠ 0 := by norm_num
  rw [fromQ30, val_round32_of_representable hden hw _ false]
  · norm_num
  · rw [hs, unitsPerOne, pow_add]
    push_cast
    ring

/-- Settles O45: a short integer times a power of two is the value of a word, and rounding keeps such a value. -/
theorem fromQ30RoundsAndIsExactOnShortIntegers : Obligations.FromQ30RoundsAndIsExactOnShortIntegers := by
  unfold Obligations.FromQ30RoundsAndIsExactOnShortIntegers
  refine ⟨fun _ _ => rfl, fun m k => val_fromQ30, rfl, ?_, ?_⟩
  · exact round32_exact (by decide) (by decide) (by decide) (by decide)
  · exact round32_exact (by decide) (by decide) (by decide) (by decide)

/-! ## The clamp (R132) -/

theorem clamp_of_not_outside {x lo hi : Word} (hhi : fgt x hi = false) (hlo : flt x lo = false) : clamp x lo hi = x := by
  simp [clamp, hhi, hlo]

theorem flt_of_isZero {a b : Word} (ha : isZero a = true) (hb : isZero b = true) : flt a b = false := by
  rw [flt_of_not_isNaN (isNaN_of_isFinite (isFinite_of_isZero ha)) (isNaN_of_isFinite (isFinite_of_isZero hb)),
    scaled_of_isZero ha, scaled_of_isZero hb]
  rfl

theorem flt_eq_false_of_val_le {a b : Word} (ha : isFinite a = true) (hb : isFinite b = true) (h : val b ≤ val a) :
    flt a b = false := by
  rw [Bool.eq_false_iff, ne_eq, flt_iff_val ha hb]
  exact h.not_gt

/-- Below an upper bound that is itself below `c`, a number is below `c`. -/
theorem flt_of_not_fgt {a b c : Word} (ha : isNaN a = false) (hab : fgt a b = false) (hbc : flt b c = true) :
    flt a c = true := by
  obtain ⟨hb, hc, hlt⟩ := (flt_iff b c).1 hbc
  have hle : ¬ scaled b < scaled a := by simpa [fgt, flt_of_not_isNaN hb ha] using hab
  exact (flt_iff a c).2 ⟨ha, hc, by omega⟩

/-- Settles O58: each consequence says which of the two tests fails. -/
theorem clampTestsTheUpperBoundFirst : Obligations.ClampTestsTheUpperBoundFirst := by
  unfold Obligations.ClampTestsTheUpperBoundFirst
  refine fun x lo hi => ⟨rfl, fun hx => ?_, fun hx hlo hhi hlx hxh => ?_, fun hx => ⟨fun hhi => ?_, fun hlo => ?_⟩,
    fun hcross hx => ?_⟩
  · exact clamp_of_not_outside (flt_of_isNaN (.inr hx)) (flt_of_isNaN (.inl hx))
  · exact clamp_of_not_outside (flt_eq_false_of_val_le hhi hx hxh) (flt_eq_false_of_val_le hx hlo hlx)
  · exact flt_of_isZero hhi hx
  · exact flt_of_isZero hx hlo
  · cases hxh : fgt x hi with
    | true => simp [clamp, hxh]
    | false => simp [clamp, hxh, flt_of_not_fgt hx hxh hcross]

end Sys2Proof.Machine
end

section
/-! What a clamp leaves alone (40_numerics.md R132), and the NaNs and zeros that run through the sums and products of `PIDC`
(R124 to R126). -/

namespace Sys2Proof.Machine

/-! ## The clamp of a pair of bounds -/

section
variable {x lo hi : Word}

/-- `clampIfSet` written out, as the statements on `PIDC` write it. -/
theorem clampIfSet_eq_ite (x lo hi : Word) : clampIfSet x lo hi =
    if isNaN lo = false ∧ isNaN hi = false then
      if fgt x hi = true then hi else if flt x lo = true then lo else x
    else x := by
  simp [clampIfSet, clamp]

theorem flt_self (a : Word) : flt a a = false := by simp [flt]

/-- A word is not beyond a pair of bounds, if the pair acts. -/
def WithinBounds (x lo hi : Word) : Prop :=
  isNaN lo = false → isNaN hi = false → fgt x hi = false ∧ flt x lo = false

/-- Between bounds that are not crossed a clamp answers a word within them: each bound is itself within. -/
theorem withinBounds_clampIfSet (x : Word) (h : isNaN lo = false → isNaN hi = false → fgt lo hi = false) :
    WithinBounds (clampIfSet x lo hi) lo hi := by
  intro hlo hhi
  rw [clampIfSet_eq_ite, if_pos ⟨hlo, hhi⟩]
  split_ifs with hxhi hxlo
  · exact ⟨flt_self hi, h hlo hhi⟩
  · exact ⟨h hlo hhi, flt_self lo⟩
  · exact ⟨by simpa using hxhi, by simpa using hxlo⟩

theorem clampIfSet_of_withinBounds (h : WithinBounds x lo hi) : clampIfSet x lo hi = x := by
  unfold clampIfSet
  split_ifs with hset
  · obtain ⟨hlo, hhi⟩ : isNaN lo = false ∧ isNaN hi = false := by simpa using hset
    obtain ⟨hxhi, hxlo⟩ := h hlo hhi
    exact clamp_of_not_outside hxhi hxlo
  · rfl

theorem withinBounds_of_unset (h : isNaN lo = true ∨ isNaN hi = true) : WithinBounds x lo hi := by
  intro hlo hhi
  simp [hlo, hhi] at h

theorem withinBounds_of_isNaN (h : isNaN x = true) : WithinBounds x lo hi :=
  fun _ _ => ⟨flt_of_isNaN (.inr h), flt_of_isNaN (.inl h)⟩

/-- The order does not tell the two zeros apart (R129). -/
theorem WithinBounds.zero_of_negZero (h : WithinBounds 0x80000000#32 lo hi) : WithinBounds 0#32 lo hi := h

@[simp] theorem clampIfSet_canonicalNaN (lo hi : Word) : clampIfSet canonicalNaN lo hi = canonicalNaN :=
  clampIfSet_of_withinBounds (withinBounds_of_isNaN isNaN_canonicalNaN)

end

/-! ## The canonical NaN as an operand -/

section
variable (a : Word)

@[simp] theorem fadd_canonicalNaN_left : fadd canonicalNaN a = canonicalNaN := fadd_of_isNaN (.inl isNaN_canonicalNaN)
@[simp] theorem fadd_canonicalNaN_right : fadd a canonicalNaN = canonicalNaN := fadd_of_isNaN (.inr isNaN_canonicalNaN)
@[simp] theorem fmul_canonicalNaN_right : fmul a canonicalNaN = canonicalNaN := fmul_of_isNaN (.inr isNaN_canonicalNaN)

end

/-! ## Zeros -/

section
variable {a b x : Word}

theorem isZero_zeroOf (z : Bool) : isZero (zeroOf z) = true := by
  revert z
  decide

/-- Finite words of opposite values add to a zero, zeros of any sign among them. -/
theorem isZero_fadd_of_scaled (ha : isFinite a = true) (hb : isFinite b = true) (h : scaled a + scaled b = 0) :
    isZero (fadd a b) = true := by
  rw [fadd_of_isFinite ha hb]
  split_ifs with hz hs
  · exact (Bool.and_eq_true_iff.1 hz).1
  · exact isZero_zeroOf false
  · rw [h]
    exact isZero_zeroOf false

theorem isFinite_fneg (a : Word) : isFinite (fneg a) = isFinite a := by simp [isFinite]

theorem isZero_fsub_of_scaled (ha : isFinite a = true) (hb : isFinite b = true) (h : scaled a = scaled b) :
    isZero (fsub a b) = true := by
  rw [fsub_eq_fadd_fneg (isNaN_of_isFinite ha) (isNaN_of_isFinite hb)]
  exact isZero_fadd_of_scaled ha ((isFinite_fneg b).trans hb) (by rw [scaled_fneg, h, add_neg_cancel])

theorem isZero_fadd (ha : isZero a = true) (hb : isZero b = true) : isZero (fadd a b) = true :=
  isZero_fadd_of_scaled (isFinite_of_isZero ha) (isFinite_of_isZero hb)
    (by rw [scaled_of_isZero ha, scaled_of_isZero hb]; rfl)

theorem isZero_fsub (ha : isZero a = true) (hb : isZero b = true) : isZero (fsub a b) = true :=
  isZero_fsub_of_scaled (isFinite_of_isZero ha) (isFinite_of_isZero hb)
    (by rw [scaled_of_isZero ha, scaled_of_isZero hb])

theorem isZero_fmul_of_scaled (ha : isFinite a = true) (hb : isFinite b = true) (h : scaled a * scaled b = 0) :
    isZero (fmul a b) = true := by
  rw [fmul_of_isFinite ha hb, h]
  exact isZero_zeroOf _

theorem isZero_fmul_left (ha : isZero a = true) (hb : isFinite b = true) : isZero (fmul a b) = true :=
  isZero_fmul_of_scaled (isFinite_of_isZero ha) hb (by rw [scaled_of_isZero ha, zero_mul])

theorem isZero_fmul_right (ha : isFinite a = true) (hb : isZero b = true) : isZero (fmul a b) = true :=
  isZero_fmul_of_scaled ha (isFinite_of_isZero hb) (by rw [scaled_of_isZero hb, mul_zero])

/-- The two words of a zero. -/
theorem eq_of_isZero (h : isZero a = true) : a = if signOf a then 0x80000000#32 else 0#32 := by
  obtain ⟨hexp, hfrac⟩ := (isZero_eq a).1 h
  have hpack := packWord_fields a
  rw [hexp, hfrac] at hpack
  rw [← hpack]
  cases signOf a <;> decide

/-- Adding a zero of either sign to a word that is no foreign NaN gives the word back, but that -0 may become +0. -/
theorem fadd_isZero_right (hx : canonical x) (hb : isZero b = true) :
    fadd x b = x ∨ x = 0x80000000#32 ∧ fadd x b = 0#32 := by
  have hbf := isFinite_of_isZero hb
  by_cases hnan : isNaN x = true
  · exact .inl ((fadd_of_isNaN (.inl hnan)).trans (hx hnan).symm)
  by_cases hinf : isInf x = true
  · exact .inl (fadd_of_isInf_left hinf (isNaN_of_isFinite hbf) (isInf_of_isFinite hbf))
  have hxf : isFinite x = true := (isFinite_iff x).2 ⟨by simpa using hnan, by simpa using hinf⟩
  rw [fadd_of_isFinite hxf hbf, hb, Bool.and_true]
  split_ifs with hz hs
  · exact .inl rfl
  · have hx0 := eq_of_isZero hz
    cases hsx : signOf x with
    | true => exact .inr ⟨by rwa [hsx] at hx0, rfl⟩
    | false => exact .inl (by rw [hsx] at hx0; exact hx0.symm)
  · have hne : scaled x ≠ 0 := by
      rw [← magOf_eq_zero_iff] at hz
      obtain hs | hs := scaled_cases x <;> omega
    rw [scaled_of_isZero hb, add_zero]
    exact .inl (round32_exact hxf unitsPerOne_ne_zero hne rfl)

theorem fadd_isZero_right_of_ne_negZero (hx : canonical x) (hne : x ≠ 0x80000000#32) (hb : isZero b = true) :
    fadd x b = x :=
  (fadd_isZero_right hx hb).resolve_right fun h => hne h.1

end

end Sys2Proof.Machine
end

section
/-! The PID controller, statement by statement (41_pid.md R151 to R163). -/

namespace Sys2Proof.Machine

/-! ## What a call writes -/

section
variable (b : Bank)

@[simp] theorem positionCall_integ : (positionCall b).integ = positionIntegral b (pidError b) := rfl
@[simp] theorem positionCall_out : (positionCall b).out = outputClamp b (positionOutput b (pidError b)) := rfl
@[simp] theorem deltaCall_err2 : (deltaCall b).err2 = b.err1 := rfl
@[simp] theorem deltaCall_out : (deltaCall b).out = outputClamp b (deltaOutput b (pidError b)) := rfl

@[simp] theorem pidCompute_err1 : (pidCompute b).err1 = pidError b := by
  cases h : b.law with
  | position => rw [pidCompute_position h]; rfl
  | delta => rw [pidCompute_delta h]; rfl

/-- Under either law the output is a sum through the output clamp. -/
theorem exists_pidCompute_out : ∃ o, canonical o ∧ (pidCompute b).out = clampIfSet o b.outLo b.outHi := by
  cases h : b.law with
  | position => exact ⟨_, canonical_fadd _ _, by rw [pidCompute_position h]; rfl⟩
  | delta => exact ⟨_, canonical_fadd _ _, by rw [pidCompute_delta h]; rfl⟩

theorem canonical_pidCompute_out : canonical (pidCompute b).out := by
  obtain ⟨o, ho, hout⟩ := exists_pidCompute_out b
  exact hout ▸ canonical_clampIfSet ho _ _

end

/-! ## The bounds hold after a call (R161) -/

theorem withinBounds_pidCompute_out {b : Bank}
    (h : isNaN b.outLo = false → isNaN b.outHi = false → fgt b.outLo b.outHi = false) :
    WithinBounds (pidCompute b).out b.outLo b.outHi := by
  obtain ⟨o, -, hout⟩ := exists_pidCompute_out b
  exact hout ▸ withinBounds_clampIfSet o h

theorem withinBounds_positionIntegral {b : Bank} (e : Word)
    (h : isNaN b.intLo = false → isNaN b.intHi = false → fgt b.intLo b.intHi = false) :
    WithinBounds (positionIntegral b e) b.intLo b.intHi :=
  withinBounds_clampIfSet _ h

/-- Settles O46: both quantities are answers of a clamp, which are within bounds that are not crossed. -/
theorem pidClampBoundsHold : Obligations.PidClampBoundsHold := by
  unfold Obligations.PidClampBoundsHold
  rintro i s t b rfl h
  rw [exec_pidc_bank h]
  refine ⟨fun hlo hhi hle => withinBounds_pidCompute_out (fun _ _ => hle) hlo hhi, fun hlaw hlo hhi hle => ?_⟩
  rw [pidCompute_position hlaw]
  exact withinBounds_positionIntegral _ (fun _ _ => hle) hlo hhi

/-! ## Zero errors under the Delta law (R162) -/

/-- A bank under the Delta law whose gains are finite, whose error is a zero and whose output bounds are not crossed. -/
structure Bank.ZeroErrorDelta (b : Bank) : Prop where
  law : b.law = .delta
  kp : isFinite b.kp = true
  ki : isFinite b.ki = true
  kd : isFinite b.kd = true
  error : isZero (pidError b) = true
  bounds : isNaN b.outLo = false → isNaN b.outHi = false → fgt b.outLo b.outHi = false

/-- A call keeps all that, since it keeps the registers the host writes. -/
theorem Bank.ZeroErrorDelta.pidCompute {b : Bank} (h : b.ZeroErrorDelta) : (pidCompute b).ZeroErrorDelta := by
  obtain ⟨hlaw, htarget, hmeas, hkp, hki, hkd, -, -, houtHi, houtLo⟩ := pidCompute_operands b
  have herror : pidError (Machine.pidCompute b) = pidError b := by rw [pidError, htarget, hmeas, pidError]
  exact ⟨hlaw ▸ h.law, hkp ▸ h.kp, hki ▸ h.ki, hkd ▸ h.kd, herror ▸ h.error, houtHi ▸ houtLo ▸ h.bounds⟩

/-- When both errors before it are zeros as well, the increment is a zero: each of its terms is. -/
theorem Bank.ZeroErrorDelta.isZero_increment {b : Bank} (h : b.ZeroErrorDelta) (herr1 : isZero b.err1 = true)
    (herr2 : isZero b.err2 = true) : isZero (deltaIncrement b (pidError b)) = true := by
  have hp := isZero_fmul_right h.kp (isZero_fsub h.error herr1)
  have hq := isZero_fmul_right h.ki h.error
  have htwo : isZero (fmul cTwo b.err1) = true := isZero_fmul_right (by decide) herr1
  have hd := isZero_fmul_right h.kd (isZero_fadd (isZero_fsub h.error htwo) herr2)
  exact isZero_fadd (isZero_fadd hp hq) hd

/-- A call with a zero increment keeps an output that is within its bounds and no foreign NaN, but that -0 may become +0. -/
theorem deltaCall_out_of_isZero {b : Bank} (hcan : canonical b.out) (hin : WithinBounds b.out b.outLo b.outHi)
    (hinc : isZero (deltaIncrement b (pidError b)) = true) :
    (deltaCall b).out = b.out ∨ b.out = 0x80000000#32 ∧ (deltaCall b).out = 0#32 := by
  rw [deltaCall_out, deltaOutput]
  obtain h | ⟨hneg, h⟩ := fadd_isZero_right hcan hinc <;> rw [h]
  · exact .inl (clampIfSet_of_withinBounds hin)
  · rw [hneg] at hin
    exact .inr ⟨hneg, clampIfSet_of_withinBounds hin.zero_of_negZero⟩

/-- Settles O47: after two calls both errors before are zeros, so the third call adds a zero to an output that the second
call's clamp has put within the bounds. -/
theorem thirdZeroErrorDeltaCallKeepsOut : Obligations.ThirdZeroErrorDeltaCallKeepsOut := by
  unfold Obligations.ThirdZeroErrorDeltaCallKeepsOut
  rintro i s t₁ t₂ t₃ b rfl hlaw htarget hmeas hval hkp hki hkd hbounds h₁ h₂ h₃
  have hscaled : scaled (s.block.bank i).target = scaled (s.block.bank i).meas := by
    simpa [val_eq_scaled] using hval.symm
  have hb : (s.block.bank i).ZeroErrorDelta := {
    law := hlaw, kp := hkp, ki := hki, kd := hkd
    error := isZero_fsub_of_scaled htarget hmeas hscaled
    bounds := fun hlo hhi => by simpa [hlo, hhi] using hbounds }
  rw [exec_pidc_bank h₃, exec_pidc_bank h₂, exec_pidc_bank h₁]
  generalize s.block.bank i = b at hb
  have hb₁ := hb.pidCompute
  have hb₂ := hb₁.pidCompute
  have herr1 : isZero (pidCompute (pidCompute b)).err1 = true := by
    rw [pidCompute_err1]
    exact hb₁.error
  have herr2 : isZero (pidCompute (pidCompute b)).err2 = true := by
    rw [pidCompute_delta hb₁.law, deltaCall_err2, pidCompute_err1]
    exact hb.error
  obtain ⟨-, -, -, -, -, -, -, -, houtHi, houtLo⟩ := pidCompute_operands (pidCompute b)
  have hin := withinBounds_pidCompute_out hb₁.bounds
  rw [← houtHi, ← houtLo] at hin
  rw [pidCompute_delta hb₂.law]
  exact deltaCall_out_of_isZero (canonical_pidCompute_out _) hin (hb₂.isZero_increment herr1 herr2)

/-! ## The scenario (R163) -/

/-- Settles O48: the proportional term is 3, and each of the other two is a zero, a product of the gain 0 and a finite
word. -/
theorem scenarioOutputsThree : Obligations.ScenarioOutputsThree := by
  unfold Obligations.ScenarioOutputsThree
  rintro i s t b rfl hlaw hkp hki hkd htarget hmeas hunset h hinteg hdiff
  rw [exec_pidc_bank h, pidCompute_position hlaw] at hinteg ⊢
  have herror : pidError (s.block.bank i) = 0x40400000#32 := by
    rw [pidError, htarget, hmeas, fsub_eq_fadd_fneg (by decide) (by decide), fadd_of_isFinite (by decide) (by decide)]
    exact (if_neg (by decide)).trans (round32_exact (by decide) (by decide) (by decide) (by decide))
  have hp : fmul 0x3F800000#32 0x40400000#32 = 0x40400000#32 := by
    rw [fmul_of_isFinite (by decide) (by decide)]
    exact round32_exact (by decide) (by decide) (by decide) (by decide)
  have hthree {z : Word} (hz : isZero z = true) : fadd 0x40400000#32 z = 0x40400000#32 :=
    fadd_isZero_right_of_ne_negZero (canonical_of_not_isNaN (by decide)) (by decide) hz
  rw [positionCall_integ, herror] at hinteg
  have hq := isZero_fmul_left (a := 0#32) (by decide) hinteg
  have hd := isZero_fmul_left (a := 0#32) (by decide) hdiff
  have hsum : positionOutput (s.block.bank i) 0x40400000#32 = 0x40400000#32 := by
    rw [positionOutput, hkp, hki, hkd, hp, hthree hq, hthree hd]
  rw [positionCall_out, herror, hsum]
  exact clampIfSet_of_withinBounds (withinBounds_of_unset hunset)

/-! ## A NaN in a bank (R159) -/

theorem pidError_of_isNaN {b : Bank} (h : isNaN b.target = true ∨ isNaN b.meas = true) : pidError b = canonicalNaN :=
  fsub_of_isNaN h

theorem positionIntegral_of_isNaN {b : Bank} {e : Word} (h : isNaN b.integ = true ∨ isNaN e = true) :
    positionIntegral b e = canonicalNaN := by
  rw [positionIntegral, fadd_of_isNaN h, clampIfSet_canonicalNaN]

theorem positionOutput_of_integral {b : Bank} {e : Word} (h : positionIntegral b e = canonicalNaN) :
    positionOutput b e = canonicalNaN := by
  simp [positionOutput, h]

/-- Under either law a NaN error makes the output NaN. -/
theorem pidCompute_out_of_error {b : Bank} (h : pidError b = canonicalNaN) : (pidCompute b).out = canonicalNaN := by
  cases hlaw : b.law with
  | position => simp [pidCompute_position hlaw, h, positionOutput, outputClamp]
  | delta => simp [pidCompute_delta hlaw, h, deltaOutput, deltaIncrement, outputClamp]

/-- Settles O49: a NaN operand makes each sum and product it enters the canonical NaN, which no clamp changes. -/
theorem naNStaysInABank : Obligations.NaNStaysInABank := by
  unfold Obligations.NaNStaysInABank
  rintro i s t b rfl h
  rw [exec_pidc_bank h]
  refine ⟨fun hnan => ?_, fun hlaw hinteg => ?_, fun hlaw hout => ?_⟩
  · have herror := pidError_of_isNaN hnan
    refine ⟨(pidCompute_err1 _).trans herror, pidCompute_out_of_error herror, fun hlaw => ?_⟩
    rw [pidCompute_position hlaw, positionCall_integ, herror]
    exact positionIntegral_of_isNaN (.inr isNaN_canonicalNaN)
  · have hg := positionIntegral_of_isNaN (e := pidError (s.block.bank i)) (.inl hinteg)
    rw [pidCompute_position hlaw]
    refine ⟨hg, ?_⟩
    rw [positionCall_out, positionOutput_of_integral hg]
    exact clampIfSet_canonicalNaN _ _
  · rw [pidCompute_delta hlaw, deltaCall_out, deltaOutput, fadd_of_isNaN (.inl hout)]
    exact clampIfSet_canonicalNaN _ _

/-! ## The two laws in full (R154, R155) -/

/-- Settles O15: the bank of `positionCall`, with the two clamps written out. -/
theorem pidcPositionLaw : Obligations.PidcPositionLaw := by
  unfold Obligations.PidcPositionLaw
  rintro s i b e a g o rfl hlaw rfl rfl rfl rfl
  rw [exec_pidc, pidCompute_position hlaw]
  simp only [← clampIfSet_eq_ite]
  rfl

/-- Settles O16: the bank of `deltaCall`, with the output clamp written out. -/
theorem pidcDeltaLaw : Obligations.PidcDeltaLaw := by
  unfold Obligations.PidcDeltaLaw
  rintro s i b e o rfl hlaw rfl rfl
  rw [exec_pidc, pidCompute_delta hlaw]
  simp only [← clampIfSet_eq_ite]
  rfl

/-! ## The frame (R152) -/

/-- A call leaves every register of its bank but `ERR1`, `OUT` and what its law writes beside them. -/
theorem Bank.readReg_pidCompute_of_ne (b : Bank) {f : BankReg} (herr1 : f ≠ .err1) (hout : f ≠ .out)
    (hinteg : b.law = .position → f ≠ .integ) (herr2 : b.law = .delta → f ≠ .err2) :
    (pidCompute b).readReg f = b.readReg f := by
  cases f with
  | err1 => exact absurd rfl herr1
  | out => exact absurd rfl hout
  | integ =>
    cases hlaw : b.law with
    | position => exact absurd rfl (hinteg hlaw)
    | delta => rw [pidCompute_delta hlaw]; rfl
  | err2 =>
    cases hlaw : b.law with
    | position => rw [pidCompute_position hlaw]; rfl
    | delta => exact absurd rfl (herr2 hlaw)
  | pctrl | target | kp | ki | kd | intHi | intLo | outHi | outLo | meas =>
    exact b.readReg_pidCompute (by simp [BankReg.hostOnly])

/-- Settles O19: outside bank `i` nothing changes, and in it what `Bank.readReg_pidCompute_of_ne` leaves out. -/
theorem pidcFrame : Obligations.PidcFrame := by
  unfold Obligations.PidcFrame
  intro i s t h
  have hbank := exec_pidc_bank h
  cases h
  refine ⟨rfl, rfl, rfl, rfl, rfl, rfl, fun r herr1 hout hinteg herr2 => ?_⟩
  cases r with
  | bank j f =>
    rw [Block.readReg, Block.readReg]
    by_cases hj : j = i
    · subst hj
      rw [hbank]
      exact (s.block.bank j).readReg_pidCompute_of_ne (fun hf => herr1 (hf ▸ rfl)) (fun hf => hout (hf ▸ rfl))
        (fun hlaw hf => hinteg hlaw (hf ▸ rfl)) (fun hlaw hf => herr2 hlaw (hf ▸ rfl))
    · rw [putBank_block, Block.bank_setBank_ne _ _ hj]
  | _ => rfl

/-! ## The target (R151) -/

/-- Settles O32: the index is that of the bank's `TARGET`, an RW register, whose word the next error is taken from. -/
theorem setTargetStoresOnlyTheTarget : Obligations.SetTargetStoresOnlyTheTarget := by
  unfold Obligations.SetTargetStoresOnlyTheTarget
  intro s i x v rest hx hp
  have hindex : x = (Reg.bank i .target).index := by
    apply BitVec.eq_of_toNat_eq
    rw [hx, bankIndex_toNat, BankReg.offset]
    omega
  have hstep : step s = .next { s with
      block := s.block.setBank i { s.block.bank i with target := v }
      history := s.history ++ [.write x v]
      pending := rest } := by
    subst hindex
    rw [step_of_write hp, writeReg_rw (r := .bank i .target) rfl]
    rfl
  refine ⟨hstep, fun t u ht hu => ?_⟩
  cases hstep.symm.trans ht
  rw [exec_pidc_bank hu, pidCompute_err1, Block.bank_setBank_self, pidError]

end Sys2Proof.Machine
end

section
/-! The forward transform (42_transform.md R171, R173, R175), and the frames of the commands with an output, each composed
of the frames of the block's updates. -/

namespace Sys2Proof.Machine

/-! ## The Clarke pair -/

/-- Settles O9: the two words of `putStationary` are those of R171. -/
theorem clarkeWritesTheStationaryPair : Obligations.ClarkeWritesTheStationaryPair := by
  unfold Obligations.ClarkeWritesTheStationaryPair
  exact ⟨decode_encode .clarke, exec_clarke⟩

/-! ## The rotation and the filters -/

section
variable {s : State} {sn cs qraw draw yq yd : Word} {fq fd : FilterState}

/-- The exchange by what the two filters answer, the D filter asked in the state before the Q exchange. -/
theorem exchangeFilters_of_sample {p : Platform} (hq : s.filtQ.sample p.filtQ qraw = (fq, yq))
    (hd : s.filtD.sample p.filtD draw = (fd, yd)) :
    exchangeFilters p qraw draw s = { s with
      block := s.block.setRotating yq yd
      filtQ := fq
      filtD := fd
      history := s.history ++ [.filtQ qraw yq, .filtD draw yd] } := by
  rw [exchangeFilters, hq, hd]

theorem exec_park_of_sample (hangle : sincosUnit s.block.theta = (sn, cs))
    (hq : s.filtQ.sample hardware.filtQ (parkQ s.block.curA s.block.curB sn cs) = (fq, yq))
    (hd : s.filtD.sample hardware.filtD (parkD s.block.curA s.block.curB sn cs) = (fd, yd)) :
    exec .park s = .next { s with
      block := (s.block.setAngle (sn, cs)).setRotating yq yd
      filtQ := fq
      filtD := fd
      history := s.history ++
        [.filtQ (parkQ s.block.curA s.block.curB sn cs) yq, .filtD (parkD s.block.curA s.block.curB sn cs) yd] } := by
  rw [exec_park, hangle]
  exact congrArg _ (exchangeFilters_of_sample (s := putAngle (sn, cs) s) hq hd)

end

/-- Settles O10: the exchange of the two raw values of R173, in the state that holds the new angle. -/
theorem parkRotatesAndFilters : Obligations.ParkRotatesAndFilters := by
  unfold Obligations.ParkRotatesAndFilters
  refine ⟨decode_encode .park, ?_⟩
  rintro s sn cs _ _ yq yd fq fd hangle rfl rfl hq hd
  exact exec_park_of_sample hangle hq hd

/-! ## The two halves as one command -/

/-- `UPDCUR` leaves what `PARK` makes of the state `CLARKE` leaves (R175). -/
theorem exec_updcur_eq_exec_park {s t : State} (h : exec .clarke s = .next t) : exec .updcur s = exec .park t := by
  cases (exec_clarke s).symm.trans h
  exact exec_updcur s

/-- `SYNTH` leaves what `ICLARKE` makes of the state `IPARK` leaves (43_synthesis.md R195). -/
theorem exec_synth_eq_exec_iclarke {s t : State} (h : exec .ipark s = .next t) :
    exec .synth s = exec .iclarke t := by
  rw [exec_eq_execOn_hardware] at h
  rw [exec_eq_execOn_hardware, execOn_synth hardware h, exec_iclarke]

/-- Settles O11: `PARK` in the state `CLARKE` leaves, whose `CUR_A`, `CUR_B` are the Clarke pair. -/
theorem updcurTransformsTheCurrents : Obligations.UpdcurTransformsTheCurrents := by
  unfold Obligations.UpdcurTransformsTheCurrents
  refine ⟨decode_encode .updcur, fun s t => exec_updcur_eq_exec_park, ?_⟩
  rintro s _ sn cs _ _ yq yd fq fd rfl hangle rfl rfl hq hd
  rw [exec_updcur_eq_exec_park (exec_clarke s)]
  exact exec_park_of_sample hangle hq hd

/-! ## The registers an update of the block leaves -/

section
variable (b : Block) {r : Reg}

theorem Block.readReg_setAngle_ne (p : Word × Word) (hsin : r ≠ .sin) (hcos : r ≠ .cos) :
    (b.setAngle p).readReg r = b.readReg r := by
  cases r with
  | sin => exact absurd rfl hsin
  | cos => exact absurd rfl hcos
  | _ => rfl

theorem Block.readReg_setStationary_ne (ia ib : Word) (hcurA : r ≠ .curA) (hcurB : r ≠ .curB) :
    (b.setStationary ia ib).readReg r = b.readReg r := by
  cases r with
  | curA => exact absurd rfl hcurA
  | curB => exact absurd rfl hcurB
  | _ => rfl

theorem Block.readReg_setRotating_ne (yq yd : Word) (hcurQ : r ≠ .curQ) (hcurD : r ≠ .curD) :
    (b.setRotating yq yd).readReg r = b.readReg r := by
  cases r with
  | curQ => exact absurd rfl hcurQ
  | curD => exact absurd rfl hcurD
  | _ => rfl

theorem Block.readReg_setVoltage_ne (ua ub : Word) (hvolA : r ≠ .volA) (hvolB : r ≠ .volB) :
    (b.setVoltage ua ub).readReg r = b.readReg r := by
  cases r with
  | volA => exact absurd rfl hvolA
  | volB => exact absurd rfl hvolB
  | _ => rfl

theorem Block.readReg_setDuties_ne (u v w : Word) (hdutyU : r ≠ .dutyU) (hdutyV : r ≠ .dutyV) (hdutyW : r ≠ .dutyW) :
    (b.setDuties u v w).readReg r = b.readReg r := by
  cases r with
  | dutyU => exact absurd rfl hdutyU
  | dutyV => exact absurd rfl hdutyV
  | dutyW => exact absurd rfl hdutyW
  | _ => rfl

end

/-! ## The registers a command leaves -/

section
variable {s t : State} {r : Reg}

theorem readReg_of_exec_clarke (h : exec .clarke s = .next t) (hcurA : r ≠ .curA) (hcurB : r ≠ .curB) :
    t.block.readReg r = s.block.readReg r := by
  cases h
  exact s.block.readReg_setStationary_ne _ _ hcurA hcurB

theorem readReg_of_exec_park (h : exec .park s = .next t) (hsin : r ≠ .sin) (hcos : r ≠ .cos) (hcurQ : r ≠ .curQ)
    (hcurD : r ≠ .curD) : t.block.readReg r = s.block.readReg r := by
  cases h
  exact (Block.readReg_setRotating_ne _ _ _ hcurQ hcurD).trans (s.block.readReg_setAngle_ne _ hsin hcos)

theorem readReg_of_exec_updcur (h : exec .updcur s = .next t) (hsin : r ≠ .sin) (hcos : r ≠ .cos) (hcurQ : r ≠ .curQ)
    (hcurD : r ≠ .curD) (hcurA : r ≠ .curA) (hcurB : r ≠ .curB) : t.block.readReg r = s.block.readReg r := by
  have hclarke := exec_clarke s
  rw [exec_updcur_eq_exec_park hclarke] at h
  exact (readReg_of_exec_park h hsin hcos hcurQ hcurD).trans (readReg_of_exec_clarke hclarke hcurA hcurB)

theorem readReg_of_exec_ipark (h : exec .ipark s = .next t) (hsin : r ≠ .sin) (hcos : r ≠ .cos) (hvolA : r ≠ .volA)
    (hvolB : r ≠ .volB) : t.block.readReg r = s.block.readReg r := by
  cases h
  exact (Block.readReg_setVoltage_ne _ _ _ hvolA hvolB).trans (s.block.readReg_setAngle_ne _ hsin hcos)

theorem readReg_of_exec_iclarke (h : exec .iclarke s = .next t) (hdutyU : r ≠ .dutyU) (hdutyV : r ≠ .dutyV)
    (hdutyW : r ≠ .dutyW) : t.block.readReg r = s.block.readReg r := by
  cases h
  exact s.block.readReg_setDuties_ne _ _ _ hdutyU hdutyV hdutyW

theorem readReg_of_exec_synth (h : exec .synth s = .next t) (hsin : r ≠ .sin) (hcos : r ≠ .cos) (hvolA : r ≠ .volA)
    (hvolB : r ≠ .volB) (hdutyU : r ≠ .dutyU) (hdutyV : r ≠ .dutyV) (hdutyW : r ≠ .dutyW) :
    t.block.readReg r = s.block.readReg r := by
  have hipark := exec_ipark s
  rw [exec_synth_eq_exec_iclarke hipark] at h
  exact (readReg_of_exec_iclarke h hdutyU hdutyV hdutyW).trans (readReg_of_exec_ipark hipark hsin hcos hvolA hvolB)

end

/-! ## The frame of the commands with an output -/

section
variable {c : Instr} {s t : State}

theorem exec_pending (h : exec c s = .next t) : t.pending = s.pending :=
  exec_induction (P := fun u => u.pending = s.pending) (fun _ _ hu => hu) (fun _ _ _ hu => hu) (fun _ _ _ hu => hu)
    (fun _ _ _ hu => hu) (fun _ _ _ _ hu => hu) (fun _ _ hu => hu) rfl h

/-- `ICLARKE` and `SYNTH` exchange with no filter. -/
theorem exec_filters_of_emits (hc : c = .iclarke ∨ c = .synth) (h : exec c s = .next t) :
    t.filtQ = s.filtQ ∧ t.filtD = s.filtD := by
  obtain ⟨u, v, w, r, rfl, hr⟩ := exec_eq_emitDuty hc h
  exact ⟨hr.filtQ, hr.filtD⟩

/-- The two events of an exchange are no emissions. -/
theorem exec_emittedDuties_of_exchanges (hc : c = .park ∨ c = .updcur) (h : exec c s = .next t) :
    emittedDuties t.history = emittedDuties s.history := by
  obtain ⟨qraw, draw, r, rfl, hr⟩ := exec_eq_exchangeFilters hc h
  simp [emittedDuties, hr.history]

end

/-- Settles O18: the register frame command by command, the rest from what every command, every exchange and every emission
keeps. -/
theorem outputCommandsFrame : Obligations.OutputCommandsFrame := by
  unfold Obligations.OutputCommandsFrame
  intro c s t hc h
  obtain ⟨hillCmd, hillAcc⟩ := exec_flags h
  refine ⟨exec_pending h, hillCmd, hillAcc, fun hemits => exec_filters_of_emits hemits h,
    fun hexchanges => exec_emittedDuties_of_exchanges hexchanges h, fun r hpark hupdcur hiclarke hsynth => ?_⟩
  cases c with
  | park =>
    obtain ⟨hsin, hcos, hcurQ, hcurD⟩ := hpark rfl
    exact readReg_of_exec_park h hsin hcos hcurQ hcurD
  | updcur =>
    obtain ⟨hsin, hcos, hcurQ, hcurD, hcurA, hcurB⟩ := hupdcur rfl
    exact readReg_of_exec_updcur h hsin hcos hcurQ hcurD hcurA hcurB
  | iclarke =>
    obtain ⟨hdutyU, hdutyV, hdutyW⟩ := hiclarke rfl
    exact readReg_of_exec_iclarke h hdutyU hdutyV hdutyW
  | synth =>
    obtain ⟨hsin, hcos, hvolA, hvolB, hdutyU, hdutyV, hdutyW⟩ := hsynth rfl
    exact readReg_of_exec_synth h hsin hcos hvolA hvolB hdutyU hdutyV hdutyW
  | nop | sincos | clarke | ipark | pidc => simp at hc

end Sys2Proof.Machine
end

section
/-! The voltage synthesis (43_synthesis.md R191, R193, R195): `IPARK`, `ICLARKE` and `SYNTH` in full, and the duties of zero
voltage at a finite angle, for any unit that keeps its pair finite and so for `SINCOS_REF`. -/

namespace Sys2Proof.Machine

/-! ## The commands in full -/

/-- `IPARK` with its pair named. -/
theorem exec_ipark_of_angle {s : State} {sn cs : Word} (hangle : sincosUnit s.block.theta = (sn, cs)) :
    exec .ipark s = .next (putVoltage (iparkA (headroom s.block.volD) (headroom s.block.volQ) sn cs)
      (iparkB (headroom s.block.volD) (headroom s.block.volQ) sn cs) (putAngle (sn, cs) s)) := by
  rw [exec_ipark, hangle]

/-- Settles O12: the four words of `putAngle` and `putVoltage` are those of R191. -/
theorem iparkWritesTheStationaryVoltages : Obligations.IparkWritesTheStationaryVoltages := by
  unfold Obligations.IparkWritesTheStationaryVoltages
  refine ⟨decode_encode .ipark, ?_⟩
  rintro s sn cs _ _ hangle rfl rfl
  exact exec_ipark_of_angle hangle

/-- Settles O13: the duties of `emitDuty` are those of R193. -/
theorem iclarkeWritesAndEmitsTheDuties : Obligations.IclarkeWritesAndEmitsTheDuties := by
  unfold Obligations.IclarkeWritesAndEmitsTheDuties
  refine ⟨decode_encode .iclarke, ?_⟩
  rintro s _ _ _ rfl rfl rfl
  exact exec_iclarke s

/-- Settles O14: `ICLARKE` in the state `IPARK` leaves, whose `VOL_A`, `VOL_B` are the pair of R191. -/
theorem synthWritesAndEmitsTheDuties : Obligations.SynthWritesAndEmitsTheDuties := by
  unfold Obligations.SynthWritesAndEmitsTheDuties
  refine ⟨decode_encode .synth, fun s t => exec_synth_eq_exec_iclarke, ?_⟩
  rintro s sn cs _ _ _ _ _ _ _ hangle rfl rfl rfl rfl rfl rfl rfl
  rw [exec_synth_eq_exec_iclarke (exec_ipark_of_angle hangle)]
  exact exec_iclarke _

/-! ## Zeros through the synthesis -/

section
variable {a b : Word}

@[simp] theorem isZero_fneg (a : Word) : isZero (fneg a) = isZero a := by simp [isZero]

theorem isZero_fdiv (ha : isZero a = true) (hb : isFinite b = true) (hbz : isZero b = false) :
    isZero (fdiv a b) = true := by
  rw [fdiv_of_isFinite (isFinite_of_isZero ha) hb hbz, scaled_of_isZero ha, neg_zero, ite_self, round32_zero]
  exact isZero_zeroOf _

theorem isZero_fdiv_cTwo (ha : isZero a = true) : isZero (fdiv a cTwo) = true :=
  isZero_fdiv ha (by decide) (by decide)

/-- A zero of either sign added to a finite word other than a zero gives the word back. -/
theorem fadd_isZero_left (ha : isZero a = true) (hb : isFinite b = true) (hbz : isZero b = false) : fadd a b = b := by
  have hb0 : scaled b ≠ 0 := by
    have hmag : magOf b ≠ 0 := by simp [magOf_eq_zero_iff, hbz]
    obtain hs | hs := scaled_cases b <;> omega
  rw [fadd_of_isFinite (isFinite_of_isZero ha) hb, hbz, Bool.and_false, if_neg Bool.false_ne_true, scaled_of_isZero ha,
    zero_add]
  exact round32_exact hb unitsPerOne_ne_zero hb0 rfl

theorem fadd_isZero_cHalf (ha : isZero a = true) : fadd a cHalf = cHalf := fadd_isZero_left ha (by decide) (by decide)

end

section
variable {d q sn cs ua ub : Word}

theorem isZero_headroom {v : Word} (h : isZero v = true) : isZero (headroom v) = true :=
  isZero_fmul_left h (by decide)

theorem isZero_iparkA (hd : isZero d = true) (hq : isZero q = true) (hsn : isFinite sn = true)
    (hcs : isFinite cs = true) : isZero (iparkA d q sn cs) = true :=
  isZero_fdiv_cTwo (isZero_fadd (isZero_fmul_left ((isZero_fneg q).trans hq) hsn) (isZero_fmul_left hd hcs))

theorem isZero_iparkB (hd : isZero d = true) (hq : isZero q = true) (hsn : isFinite sn = true)
    (hcs : isFinite cs = true) : isZero (iparkB d q sn cs) = true :=
  isZero_fdiv_cTwo (isZero_fadd (isZero_fmul_left hq hcs) (isZero_fmul_left hd hsn))

theorem dutyOfU_of_isZero (ha : isZero ua = true) : dutyOfU ua = cHalf := fadd_isZero_cHalf ha

theorem dutyOfV_of_isZero (ha : isZero ua = true) (hb : isZero ub = true) : dutyOfV ua ub = cHalf :=
  fadd_isZero_cHalf (isZero_fadd (isZero_fdiv_cTwo ((isZero_fneg ua).trans ha))
    (isZero_fdiv_cTwo (isZero_fmul_left hb (by decide))))

/-- 1.5 less two halves is a half, exactly. -/
theorem dutyOfW_cHalf : dutyOfW cHalf cHalf = cHalf := by decide +kernel

end

/-! ## Zero voltage gives half duties (R195) -/

/-- Zeros in `VOL_A`, `VOL_B` after the inverse Park half make `SYNTH` emit three halves. -/
theorem execOn_synth_of_isZero {p : Platform} {s t : State} (h : execOn p .ipark s = .next t)
    (ha : isZero t.block.volA = true) (hb : isZero t.block.volB = true) :
    execOn p .synth s = .next (emitDuty cHalf cHalf cHalf t) := by
  rw [execOn_synth p h, dutyOfU_of_isZero ha, dutyOfV_of_isZero ha hb, dutyOfW_cHalf]

/-- Settles O57: a finite pair keeps the zero of the voltages through the rotation. -/
theorem zeroVoltageGivesHalfDutiesWithAnyUnit : Obligations.ZeroVoltageGivesHalfDutiesWithAnyUnit := by
  unfold Obligations.ZeroVoltageGivesHalfDutiesWithAnyUnit
  intro p s hbounded hvolD hvolQ htheta
  obtain ⟨hsn, hcs, -, -⟩ := hbounded s.block.theta htheta
  have hd : isZero (headroom s.block.volD) = true := isZero_headroom (by rw [hvolD]; decide)
  have hq : isZero (headroom s.block.volQ) = true := isZero_headroom (by rw [hvolQ]; decide)
  exact ⟨_, execOn_synth_of_isZero (execOn_ipark p s) (isZero_iparkA hd hq hsn hcs) (isZero_iparkB hd hq hsn hcs),
    rfl, rfl, rfl, rfl⟩

/-! ## `SINCOS_REF` keeps its pair within 1 (44_sincos.md R212 c) -/

theorem abs_clampQ30_le (n : Int) : |clampQ30 n| ≤ 2 ^ 30 := by
  rw [clampQ30, abs_of_nonneg (le_min (le_max_right _ _) (by norm_num))]
  exact min_le_right _ _

theorem abs_cordicQ1_le (r : Nat) : |(cordicQ1 r).1| ≤ 2 ^ 30 ∧ |(cordicQ1 r).2| ≤ 2 ^ 30 := by
  rw [cordicQ1]
  split_ifs
  · norm_num
  · exact ⟨abs_clampQ30_le _, abs_clampQ30_le _⟩

/-- A quadrant only swaps the two and flips signs. -/
theorem abs_quadrantMap_le (quad : Nat) {c s m : Int} (hc : |c| ≤ m) (hs : |s| ≤ m) :
    |(quadrantMap quad c s).1| ≤ m ∧ |(quadrantMap quad c s).2| ≤ m := by
  match quad with
  | 0 => exact ⟨hc, hs⟩
  | 1 => exact ⟨(abs_neg s).trans_le hs, hc⟩
  | 2 => exact ⟨(abs_neg c).trans_le hc, (abs_neg s).trans_le hs⟩
  | _ + 3 => exact ⟨hs, (abs_neg c).trans_le hc⟩

theorem val_one : val 0x3F800000#32 = 1 := by
  have h : scaled 0x3F800000#32 = 2 ^ 149 := by decide
  rw [val_eq_scaled, h]
  norm_num

theorem val_neg_one : val 0xBF800000#32 = -1 := by
  have h : scaled 0xBF800000#32 = -2 ^ 149 := by decide
  rw [val_eq_scaled, h]
  norm_num

/-- A number of [-1, 1] is rounded to a word no farther from it than the words of 1 and -1 are, so to one of [-1, 1]. -/
theorem round32_bounded {num : Int} {den : Nat} {z : Bool} (h0 : num ≠ 0) (hd : den ≠ 0) (h : |(num : ℚ) / den| ≤ 1) :
    isFinite (round32 num den z) = true ∧ |val (round32 num den z)| ≤ 1 := by
  have hinf : isInf (round32 num den z) = false := by
    rw [Bool.eq_false_iff, ne_eq, isInf_round32_iff_threshold h0 hd, not_le]
    exact h.trans_lt (by norm_num)
  have hfin := (isFinite_iff _).2 ⟨isNaN_round32 num den z, hinf⟩
  have hone := (round32_nearest h0 hd hfin 0x3F800000#32).1
  have hnegOne := (round32_nearest h0 hd hfin 0xBF800000#32).1
  obtain ⟨hlo, hhi⟩ := abs_le.1 h
  rw [val_one, abs_of_nonneg (sub_nonneg.2 hhi)] at hone
  rw [val_neg_one, abs_of_nonpos (sub_nonpos.2 hlo)] at hnegOne
  refine ⟨hfin, abs_le.2 ⟨?_, ?_⟩⟩
  · linarith [neg_le_of_abs_le hnegOne]
  · linarith [le_of_abs_le hone]

theorem fromQ30_bounded {n : Int} (h : |n| ≤ 2 ^ 30) : isFinite (fromQ30 n) = true ∧ |val (fromQ30 n)| ≤ 1 := by
  obtain rfl | h0 := eq_or_ne n 0
  · have hz : isZero (fromQ30 0) = true := isZero_zeroOf false
    refine ⟨isFinite_of_isZero hz, ?_⟩
    rw [val_eq_scaled, scaled_of_isZero hz]
    norm_num
  · refine round32_bounded h0 (by norm_num) ?_
    rw [abs_div, Nat.abs_cast, div_le_one (by norm_num)]
    exact_mod_cast h

/-- Clause (c) of the contract. -/
theorem sincosBounded_sincosRef : SincosBounded sincosRef := by
  intro theta htheta
  rw [sincosRef, if_pos htheta, sincosOfBam]
  obtain ⟨hc, hs⟩ := abs_cordicQ1_le (bamOf theta % 2 ^ 30)
  obtain ⟨hcos, hsin⟩ := abs_quadrantMap_le (bamOf theta / 2 ^ 30) hc hs
  obtain ⟨hsinf, hsin1⟩ := fromQ30_bounded hsin
  obtain ⟨hcosf, hcos1⟩ := fromQ30_bounded hcos
  exact ⟨hsinf, hcosf, hsin1, hcos1⟩

/-- Settles O53: this hardware's unit meets clause (c). -/
theorem zeroVoltageGivesHalfDuties : Obligations.ZeroVoltageGivesHalfDuties := by
  unfold Obligations.ZeroVoltageGivesHalfDuties
  intro s hvolD hvolQ htheta
  rw [exec_eq_execOn_hardware]
  exact zeroVoltageGivesHalfDutiesWithAnyUnit hardware s sincosBounded_sincosRef hvolD hvolQ htheta

end Sys2Proof.Machine
end

section
/-! `SINCOS_REF` where it is exact (44_sincos.md R211 to R213, R219, R220): the pair of a non-finite angle, of the two zeros
and of the four cardinal angles, and why no result is -0. -/

namespace Sys2Proof.Machine

/-- Settles O8: `putAngle` writes the pair of `SINCOS_REF` of `THETA`. -/
theorem sincosWritesThePair : Obligations.SincosWritesThePair := by
  unfold Obligations.SincosWritesThePair
  exact ⟨decode_encode .sincos, exec_sincos⟩

/-! ## `SINCOS_REF` by the class of its angle -/

theorem sincosRef_of_isFinite {theta : Word} (h : isFinite theta = true) : sincosRef theta = sincosOfBam (bamOf theta) :=
  if_pos h

/-- Clause (b) of the contract. -/
theorem sincosNonFinite_sincosRef : SincosNonFinite sincosRef := fun theta h => by simp [sincosRef, h]

/-! ## The cardinal angles (R220) -/

theorem fromQ30_cardinals :
    fromQ30 0 = 0#32 ∧ fromQ30 (2 ^ 30) = 0x3F800000#32 ∧ fromQ30 (-(2 ^ 30)) = 0xBF800000#32 :=
  fromQ30RoundsAndIsExactOnShortIntegers.2.2

/-- With no residual the CORDIC does not run: the pair is (1, 0), turned into the quadrant. -/
theorem sincosRef_of_bamOf_mod_eq_zero {theta : Word} {p : Nat} (hf : isFinite theta = true) (hp : bamOf theta = p)
    (hmod : p % 2 ^ 30 = 0) : sincosRef theta =
      (fromQ30 (quadrantMap (p / 2 ^ 30) (2 ^ 30) 0).2, fromQ30 (quadrantMap (p / 2 ^ 30) (2 ^ 30) 0).1) := by
  rw [sincosRef_of_isFinite hf, hp, sincosOfBam, hmod]
  rfl

/-- Settles O51: the four binary angles have no residual; those of the four words nearest to them are computed. -/
theorem cardinalAnglesAreExact : Obligations.CardinalAnglesAreExact := by
  unfold Obligations.CardinalAnglesAreExact
  obtain ⟨hzero, hone, hnegOne⟩ := fromQ30_cardinals
  refine ⟨fun theta hf h => ?_, fun theta hf h => ?_, fun theta hf h => ?_, fun theta hf h => ?_, ?_⟩
  · exact (sincosRef_of_bamOf_mod_eq_zero hf h (by norm_num)).trans (Prod.ext hzero hone)
  · exact (sincosRef_of_bamOf_mod_eq_zero hf h (by norm_num)).trans (Prod.ext hone hzero)
  · exact (sincosRef_of_bamOf_mod_eq_zero hf h (by norm_num)).trans (Prod.ext hzero hnegOne)
  · exact (sincosRef_of_bamOf_mod_eq_zero hf h (by norm_num)).trans (Prod.ext hnegOne hzero)
  · decide +kernel

/-! ## No result is -0 (R219) -/

/-- A magnitude of at least one unit of 2^-149 does not round to zero. -/
theorem roundMag_pos {n d : Nat} (hd : 0 < d) (h : d ≤ n) : 0 < roundMag n d := by
  obtain ⟨sh, hround, -, -, -, -⟩ := roundMag_spec (n := n) hd
  obtain rfl | hsh := Nat.eq_zero_or_pos sh
  · have hquot := Nat.div_pos h hd
    have hrne := (rne_bounds n d).1
    rw [pow_zero, mul_one] at hround
    omega
  · omega

theorem isZero_packWord_iff {s : Bool} {m : Nat} (h : m < 2 ^ 31) : isZero (packWord s m) = true ↔ m = 0 := by
  rw [isZero_eq, expOf_packWord h, fracOf_packWord h]
  omega

/-- A step of 2^-30 is far above the smallest magnitude, so only 0 becomes a zero. -/
theorem isZero_fromQ30_iff (n : Int) : isZero (fromQ30 n) = true ↔ n = 0 := by
  obtain rfl | h0 := eq_or_ne n 0
  · exact iff_of_true (isZero_zeroOf false) rfl
  · have hstep : 2 ^ 30 ≤ n.natAbs * unitsPerOne :=
      (show 2 ^ 30 ≤ 1 * unitsPerOne by decide).trans (Nat.mul_le_mul_right _ (Int.natAbs_pos.2 h0))
    rw [fromQ30, round32_of_ne_zero h0, isZero_packWord_iff (roundMag_lt _ _)]
    exact iff_of_false (roundMag_pos (by norm_num) hstep).ne' h0

/-- `fromQ30` rounds an exact zero to +0. -/
theorem fromQ30_ne_negZero (n : Int) : fromQ30 n ≠ 0x80000000#32 := by
  intro h
  obtain rfl : n = 0 := (isZero_fromQ30_iff n).1 (h ▸ by decide)
  exact absurd h (by decide)

/-- Clause (e) of the contract: both zeros have the binary angle 0. -/
theorem sincosZero_sincosRef : SincosZero sincosRef := by
  obtain ⟨hzero, -⟩ := cardinalAnglesAreExact
  exact ⟨hzero _ (by decide) (by decide), hzero _ (by decide) (by decide)⟩

/-- Settles O50: both results of a finite angle are values of `fromQ30`. -/
theorem sincosRefMeetsTheContractsExactClauses : Obligations.SincosRefMeetsTheContractsExactClauses := by
  unfold Obligations.SincosRefMeetsTheContractsExactClauses
  refine ⟨sincosNonFinite_sincosRef, sincosBounded_sincosRef, sincosZero_sincosRef, fun theta hf => ?_⟩
  rw [sincosRef_of_isFinite hf]
  exact ⟨fromQ30_ne_negZero _, fromQ30_ne_negZero _⟩

end Sys2Proof.Machine
end

section
/-! The reduction to a binary angle (44_sincos.md R215): the turns do not overflow, `rneInt` answers a nearest integer, and
from 2^23 turns on every value is a whole number of turns. -/

namespace Sys2Proof.Machine

/-! ## The angle in turns -/

theorem abs_val_lt_of_isFinite {a : Word} (h : isFinite a = true) : |val a| < 2 ^ 128 := by
  have hinf : magBits 0x7F800000 = 2 ^ 24 * 2 ^ 253 :=
    magBits_significand (sh := 253) (k := 2 ^ 24) (le_refl _) (.inr (by norm_num))
  obtain ⟨hlo, hhi⟩ := scaled_bounds_of_isFinite h
  have hscaled : |(scaled a : ℚ)| < 2 ^ 24 * 2 ^ 253 := by
    rw [hinf] at hlo hhi
    exact_mod_cast abs_lt.2 ⟨hlo, hhi⟩
  rw [val_eq_scaled, abs_div, abs_of_pos (by positivity : (0 : ℚ) < 2 ^ 149), div_lt_iff₀ (by positivity)]
  exact hscaled.trans_eq (by rw [← pow_add, ← pow_add])

/-- Below the overflow threshold of R122 a rounded number is finite. -/
theorem isFinite_round32_of_abs_lt {num : Int} {den : Nat} {z : Bool} (hd : den ≠ 0)
    (h : |(num : ℚ) / den| < 2 ^ 128 - 2 ^ 103) : isFinite (round32 num den z) = true := by
  obtain rfl | h0 := eq_or_ne num 0
  · exact isFinite_of_isZero (isZero_zeroOf z)
  · refine (isFinite_iff _).2 ⟨isNaN_round32 num den z, ?_⟩
    rw [Bool.eq_false_iff, ne_eq, isInf_round32_iff_threshold h0 hd]
    exact h.not_ge

/-- `C_INV2PI` is below a half, so the product of R215 is at most half as large as the angle. -/
theorem isFinite_fmul_cInv2Pi {theta : Word} (h : isFinite theta = true) : isFinite (fmul theta cInv2Pi) = true := by
  have hc : |val cInv2Pi| ≤ 1 / 2 := by
    have hs : scaled cInv2Pi = 0xA2F983 * 2 ^ 123 := by decide
    rw [val_eq_scaled, hs]
    norm_num [abs_of_pos]
  rw [fmul_of_isFinite h (by decide)]
  refine isFinite_round32_of_abs_lt (mul_ne_zero unitsPerOne_ne_zero unitsPerOne_ne_zero) ?_
  rw [Int.cast_mul, Nat.cast_mul, ← div_mul_div_comm, ← val_eq_div_unitsPerOne, ← val_eq_div_unitsPerOne, abs_mul]
  calc |val theta| * |val cInv2Pi| ≤ 2 ^ 128 * (1 / 2) :=
        mul_le_mul (abs_val_lt_of_isFinite h).le hc (abs_nonneg _) (by positivity)
    _ < 2 ^ 128 - 2 ^ 103 := by norm_num

/-- From 2^23 on every finite value is a whole number. -/
theorem exists_scaled_eq_mul_unitsPerOne {b : Word} (h : 2 ^ 23 ≤ |val b|) :
    ∃ m : Int, scaled b = m * unitsPerOne := by
  obtain ⟨sh, k, hmag, hk⟩ := magOf_form b
  have hlarge : 2 ^ 172 ≤ magOf b := by
    have habs : |(scaled b : ℚ)| = magOf b := by obtain hs | hs := scaled_cases b <;> simp [hs]
    rw [val_eq_scaled, abs_div, abs_of_pos (by positivity : (0 : ℚ) < 2 ^ 149), le_div_iff₀ (by positivity), habs] at h
    exact_mod_cast (by norm_num : (2 : ℚ) ^ 172 = 2 ^ 23 * 2 ^ 149).trans_le h
  have hsh : 149 ≤ sh := by
    have hlt : 2 ^ 172 < 2 ^ (24 + sh) := by
      rw [pow_add]
      exact (hlarge.trans_eq hmag).trans_lt (Nat.mul_lt_mul_of_pos_right hk (by positivity))
    have := (Nat.pow_lt_pow_iff_right (by norm_num)).1 hlt
    omega
  have hdvd : unitsPerOne ∣ magOf b := hmag ▸ Dvd.dvd.mul_left (pow_dvd_pow 2 hsh) k
  obtain ⟨m, hm⟩ : (unitsPerOne : Int) ∣ scaled b := by
    rw [← Int.natCast_dvd_natCast] at hdvd
    obtain hs | hs := scaled_cases b <;> simpa [hs] using hdvd
  exact ⟨m, hm.trans (mul_comm _ _)⟩

/-! ## The nearest integer -/

/-- `rne` is within half of the quotient, and even where it is just a half away: then the integer on the other side of the
quotient is as near. -/
theorem rne_within_half {n d : Nat} (hd : 0 < d) :
    2 * |(rne n d : Int) * d - n| ≤ d ∧ (2 * |(rne n d : Int) * d - n| = d → rne n d % 2 = 0) := by
  obtain ⟨hup, hdown⟩ := rne_near (n := n) hd
  have htieUp := rne_tie (n := n) hd (j := rne n d + 1) (by omega)
  have htieDown := rne_tie (n := n) hd (j := rne n d - 1) (by omega)
  zify at hup hdown
  rw [add_mul, one_mul, add_sub_right_comm] at htieUp
  rw [sub_mul, one_mul, sub_right_comm] at htieDown
  rw [add_mul, one_mul, mul_assoc] at hup
  generalize (rne n d : Int) * d = x at *
  obtain ⟨habs, hx⟩ | ⟨habs, hx⟩ := abs_cases (x - n)
  · rw [habs] at htieDown ⊢
    refine ⟨by omega, fun h => htieDown ?_⟩
    rw [abs_of_nonpos (by omega)]
    omega
  · rw [habs] at htieUp ⊢
    refine ⟨by omega, fun h => htieUp ?_⟩
    rw [abs_of_nonneg (by omega)]
    omega

/-- `rneInt` rounds on the side of zero the number is on. -/
theorem rneInt_within_half (n : Int) {d : Nat} (hd : 0 < d) :
    2 * |rneInt n d * d - n| ≤ d ∧ (2 * |rneInt n d * d - n| = d → rneInt n d % 2 = 0) := by
  obtain ⟨hle, htie⟩ := rne_within_half (n := n.natAbs) hd
  rw [Int.natCast_natAbs] at hle htie
  unfold rneInt
  split_ifs with h
  · have hneg : -(rne n.natAbs d : Int) * d - n = -(rne n.natAbs d * d - |n|) := by
      rw [abs_of_neg h]
      ring
    rw [hneg, abs_neg]
    refine ⟨hle, fun heq => ?_⟩
    have heven := htie heq
    omega
  · rw [abs_of_nonneg (not_lt.1 h)] at hle htie
    exact ⟨hle, fun heq => by exact_mod_cast htie heq⟩

/-- `rneInt` answers an integer nearest the quotient, the even one on a tie. -/
theorem rneInt_nearest (n : Int) {d : Nat} (hd : 0 < d) :
    |(rneInt n d : ℚ) - n / d| ≤ 1 / 2 ∧ (|(rneInt n d : ℚ) - n / d| = 1 / 2 → rneInt n d % 2 = 0) := by
  have hd' : (0 : ℚ) < d := by exact_mod_cast hd
  have hscale : |(rneInt n d : ℚ) - n / d| = (|rneInt n d * d - n| : Int) / d := by
    rw [← abs_of_pos hd', Int.cast_abs, ← abs_div, abs_of_pos hd']
    congr 1
    push_cast
    field_simp
  obtain ⟨hle, htie⟩ := rneInt_within_half n hd
  rw [hscale, div_le_div_iff₀ hd' two_pos, div_eq_div_iff hd'.ne' two_ne_zero]
  refine ⟨?_, fun h => htie ?_⟩
  · rw [mul_comm, one_mul]
    exact_mod_cast hle
  · rw [mul_comm, one_mul] at h
    exact_mod_cast h

/-- An integer nearest `x`, the even one on a tie, is 0 exactly for `x` within a half of 0. -/
theorem nearest_eq_zero_iff {k : Int} {x : ℚ} (hnear : |(k : ℚ) - x| ≤ 1 / 2)
    (htie : |(k : ℚ) - x| = 1 / 2 → k % 2 = 0) : k = 0 ↔ |x| ≤ 1 / 2 := by
  constructor
  · rintro rfl
    simpa using hnear
  · intro hx
    by_contra h0
    have hk : (1 : ℚ) ≤ |(k : ℚ)| := by exact_mod_cast Int.one_le_abs h0
    have htriangle : |(k : ℚ)| ≤ |(k : ℚ) - x| + |x| := by simpa using abs_add_le ((k : ℚ) - x) x
    have heven := htie (by linarith)
    have hk1 : |k| ≤ 1 := by exact_mod_cast (by linarith : |(k : ℚ)| ≤ 1)
    obtain ⟨hlo, hhi⟩ := abs_le.1 hk1
    omega

theorem rneInt_mul_exact (m : Int) {d : Nat} (hd : 0 < d) : rneInt (m * d) d = m := by
  have hd' : (0 : Int) < d := by exact_mod_cast hd
  rw [rneInt, Int.natAbs_mul, Int.natAbs_natCast, rne_mul_exact hd]
  split_ifs with h
  · have := neg_of_mul_neg_left h hd'.le
    omega
  · have := nonneg_of_mul_nonneg_left (not_lt.1 h) hd'
    omega

/-! ## The binary angle (R215) -/

/-- In units of 2^-149, turns times 2^32 are units of 2^-117. -/
theorem val_mul_two_pow_32 (b : Word) : val b * 2 ^ 32 = scaled b / (2 ^ 117 : Nat) := by
  rw [val_eq_scaled]
  push_cast
  ring

theorem bamOf_eq_emod (theta : Word) :
    (bamOf theta : Int) = rneInt (scaled (fmul theta cInv2Pi)) (2 ^ 117) % 2 ^ 32 :=
  Int.toNat_of_nonneg (Int.emod_nonneg _ (by norm_num))

/-- A whole number of turns is the angle 0. -/
theorem bamOf_eq_zero {theta : Word} {m : Int} (h : scaled (fmul theta cInv2Pi) = m * unitsPerOne) : bamOf theta = 0 := by
  have hsplit : (m * unitsPerOne : Int) = m * 2 ^ 32 * (2 ^ 117 : Nat) := by
    rw [unitsPerOne]
    push_cast
    ring
  have hmod : (bamOf theta : Int) = 0 := by
    rw [bamOf_eq_emod, h, hsplit, rneInt_mul_exact _ (by positivity), Int.mul_emod_left]
  exact_mod_cast hmod

/-- Settles O52: `k` is what `rneInt` answers for the turns in units of 2^-32. -/
theorem angleReductionIsNearestInteger : Obligations.AngleReductionIsNearestInteger := by
  unfold Obligations.AngleReductionIsNearestInteger
  rintro theta t hf rfl
  refine ⟨isFinite_fmul_cInv2Pi hf, ⟨rneInt (scaled (fmul theta cInv2Pi)) (2 ^ 117), ?_⟩, fun hlarge => ?_⟩
  · rw [← cInv2Pi, val_mul_two_pow_32]
    obtain ⟨hnear, htie⟩ := rneInt_nearest (scaled (fmul theta cInv2Pi)) (d := 2 ^ 117) (by positivity)
    refine ⟨hnear, htie, bamOf_eq_emod theta, (nearest_eq_zero_iff hnear htie).trans ?_⟩
    rw [← val_mul_two_pow_32, abs_mul, abs_of_pos (by positivity : (0 : ℚ) < 2 ^ 32), ← le_div_iff₀ (by positivity)]
    norm_num
  · obtain ⟨m, hm⟩ := exists_scaled_eq_mul_unitsPerOne hlarge
    exact bamOf_eq_zero hm

end Sys2Proof.Machine
end

section
/-! `SINCOS` as a parameter (44_sincos.md R210, R212, R213): the pair at `THETA` is all a command takes of the unit, and what
the canonical NaN twice makes of every command that takes it. -/

namespace Sys2Proof.Machine

/-! ## The pair is all a command takes of the unit (R210) -/

section
variable {c : Instr} {f : Word → Word × Word}

theorem execOn_of_angleCommand (p : Platform) (hc : c ∈ angleCommands) (s : State) :
    ∃ t, execOn p c s = .next t ∧ (t.block.sin, t.block.cos) = p.sincos s.block.theta := by
  cases c with
  | sincos | park | updcur | ipark | synth => exact ⟨_, rfl, rfl⟩
  | nop | clarke | iclarke | pidc => simp [angleCommands] at hc

theorem execOn_of_not_angleCommand (p : Platform) (hc : c ∉ angleCommands) (s : State) :
    ∃ t, execOn p c s = .next t ∧ t.block.sin = s.block.sin ∧ t.block.cos = s.block.cos := by
  cases c with
  | nop | clarke | iclarke | pidc => exact ⟨_, rfl, rfl, rfl⟩
  | sincos | park | updcur | ipark | synth => simp [angleCommands] at hc

/-- A unit that gives the word in `THETA` the same pair may take the place of the platform's. -/
theorem execOn_with_sincos_of_eq {p : Platform} {s : State} (h : f s.block.theta = p.sincos s.block.theta) :
    execOn { p with sincos := f } c s = execOn p c s := by
  have hpair : ({ p with sincos := f } : Platform).sincos s.block.theta = p.sincos s.block.theta := h
  have hipark : execOn { p with sincos := f } .ipark s = execOn p .ipark s := by
    rw [execOn_ipark, execOn_ipark, hpair]
  cases c with
  | nop | clarke | iclarke | pidc => rfl
  | sincos => rw [execOn_sincos, execOn_sincos, hpair]
  | park =>
    rw [execOn_park, execOn_park, hpair]
    rfl
  | updcur =>
    rw [execOn_updcur, execOn_updcur, hpair]
    rfl
  | ipark => exact hipark
  | synth => rw [execOn_synth p (execOn_ipark p s), execOn_synth _ (hipark.trans (execOn_ipark p s))]

/-- A command that does not evaluate the angle does not call the unit. -/
theorem execOn_with_sincos_of_not_angleCommand (p : Platform) (hc : c ∉ angleCommands) (s : State) :
    execOn { p with sincos := f } c s = execOn p c s := by
  cases c with
  | nop | clarke | iclarke | pidc => rfl
  | sincos | park | updcur | ipark | synth => simp [angleCommands] at hc

end

/-- Settles O55: the commands that evaluate the angle and the others apart. -/
theorem sincosEntersOnlyThroughThePair : Obligations.SincosEntersOnlyThroughThePair := by
  unfold Obligations.SincosEntersOnlyThroughThePair
  exact fun p c s f => ⟨fun hc => execOn_of_angleCommand p hc s,
    fun h => h.elim execOn_with_sincos_of_eq fun hc => execOn_with_sincos_of_not_angleCommand p hc s,
    fun hc => execOn_of_not_angleCommand p hc s⟩

/-! ## A NaN pair through the rotations and the duties -/

section
variable (a b : Word)

@[simp] theorem fsub_canonicalNaN_left : fsub canonicalNaN a = canonicalNaN := fsub_of_isNaN (.inl isNaN_canonicalNaN)
@[simp] theorem fsub_canonicalNaN_right : fsub a canonicalNaN = canonicalNaN := fsub_of_isNaN (.inr isNaN_canonicalNaN)
@[simp] theorem fmul_canonicalNaN_left : fmul canonicalNaN a = canonicalNaN := fmul_of_isNaN (.inl isNaN_canonicalNaN)
@[simp] theorem fdiv_canonicalNaN_left : fdiv canonicalNaN a = canonicalNaN := fdiv_of_isNaN (.inl isNaN_canonicalNaN)

@[simp] theorem parkQ_canonicalNaN : parkQ a b canonicalNaN canonicalNaN = canonicalNaN := by simp [parkQ]
@[simp] theorem parkD_canonicalNaN : parkD a b canonicalNaN canonicalNaN = canonicalNaN := by simp [parkD]
@[simp] theorem iparkA_canonicalNaN : iparkA a b canonicalNaN canonicalNaN = canonicalNaN := by simp [iparkA]
@[simp] theorem iparkB_canonicalNaN : iparkB a b canonicalNaN canonicalNaN = canonicalNaN := by simp [iparkB]
@[simp] theorem dutyOfU_canonicalNaN : dutyOfU canonicalNaN = canonicalNaN := by simp [dutyOfU]
@[simp] theorem dutyOfV_canonicalNaN : dutyOfV a canonicalNaN = canonicalNaN := by simp [dutyOfV]
@[simp] theorem dutyOfW_canonicalNaN : dutyOfW a canonicalNaN = canonicalNaN := by simp [dutyOfW]

end

/-! ## What the commands answer for a NaN pair (R213) -/

section
variable {p : Platform} {s : State} (h : p.sincos s.block.theta = (canonicalNaN, canonicalNaN))
include h

theorem execOn_park_of_canonicalNaN :
    execOn p .park s =
      .next (exchangeFilters p canonicalNaN canonicalNaN (putAngle (canonicalNaN, canonicalNaN) s)) := by
  simp [execOn_park, h]

theorem execOn_updcur_of_canonicalNaN :
    execOn p .updcur s = .next (exchangeFilters p canonicalNaN canonicalNaN (putAngle (canonicalNaN, canonicalNaN)
      (putStationary s.block.curU (clarkeB s.block.curU s.block.curV) s))) := by
  simp [execOn_updcur, h]

theorem execOn_ipark_of_canonicalNaN :
    execOn p .ipark s = .next (putVoltage canonicalNaN canonicalNaN (putAngle (canonicalNaN, canonicalNaN) s)) := by
  simp [execOn_ipark, h]

theorem execOn_synth_of_canonicalNaN :
    execOn p .synth s = .next (emitDuty canonicalNaN canonicalNaN canonicalNaN
      (putVoltage canonicalNaN canonicalNaN (putAngle (canonicalNaN, canonicalNaN) s))) := by
  simp [execOn_synth p (execOn_ipark_of_canonicalNaN h)]

end

/-- Settles O56: clause (b) makes the pair the canonical NaN twice, and no operation on the way drops a NaN. -/
theorem nonFiniteAngleGivesNaNWithAnyUnit : Obligations.NonFiniteAngleGivesNaNWithAnyUnit := by
  unfold Obligations.NonFiniteAngleGivesNaNWithAnyUnit
  intro p s hunit htheta
  have hpair := hunit s.block.theta htheta
  have hpark := execOn_park_of_canonicalNaN hpair
  have hupdcur := execOn_updcur_of_canonicalNaN hpair
  have hipark := execOn_ipark_of_canonicalNaN hpair
  have hsynth := execOn_synth_of_canonicalNaN hpair
  refine ⟨fun c hc => ?_, ?_, ?_, _, hsynth, rfl, rfl, rfl, rfl⟩
  · obtain ⟨t, ht, hangle⟩ := execOn_of_angleCommand p hc s
    obtain ⟨hsin, hcos⟩ := Prod.ext_iff.1 (hangle.trans hpair)
    exact ⟨t, ht, hsin, hcos⟩
  · simp only [List.forall_mem_cons]
    exact ⟨⟨_, _, _, hpark, rfl⟩, ⟨_, _, _, hupdcur, rfl⟩, by simp⟩
  · simp only [List.forall_mem_cons]
    exact ⟨⟨_, hipark, rfl, rfl⟩, ⟨_, hsynth, rfl, rfl⟩, by simp⟩

end Sys2Proof.Machine
end

section
/-! `NOP` in full (45_system.md R241), and the frame of the commands that write registers only (45_system.md R241,
44_sincos.md R211, 42_transform.md R171, 43_synthesis.md R191). -/

namespace Sys2Proof.Machine

/-- Settles O7: the all-zero word is the encoder's word of `NOP`. -/
theorem nopChangesNothing : Obligations.NopChangesNothing := by
  unfold Obligations.NopChangesNothing
  exact ⟨decode_encode .nop, exec_nop⟩

/-! ## The frame of the commands that write registers only -/

section
variable {s t : State} {r : Reg}

theorem readReg_of_exec_nop (h : exec .nop s = .next t) : t.block.readReg r = s.block.readReg r := by
  cases h
  rfl

theorem readReg_of_exec_sincos (h : exec .sincos s = .next t) (hsin : r ≠ .sin) (hcos : r ≠ .cos) :
    t.block.readReg r = s.block.readReg r := by
  cases h
  exact s.block.readReg_setAngle_ne _ hsin hcos

end

/-- Settles O17: the register frame command by command; the four reach no collaborator, and the flags and the pending
inputs every command keeps. -/
theorem registerOnlyCommandsFrame : Obligations.RegisterOnlyCommandsFrame := by
  unfold Obligations.RegisterOnlyCommandsFrame
  intro c s t hc h
  obtain ⟨hfiltQ, hfiltD, hhistory⟩ := exec_sameOutside (ne_of_mem_of_not_mem hc (by decide))
    (ne_of_mem_of_not_mem hc (by decide)) (ne_of_mem_of_not_mem hc (by decide)) (ne_of_mem_of_not_mem hc (by decide)) h
  obtain ⟨hillCmd, hillAcc⟩ := exec_flags h
  refine ⟨hfiltQ, hfiltD, hhistory, exec_pending h, hillCmd, hillAcc, fun r hsincos hclarke hipark => ?_⟩
  cases c with
  | nop => exact readReg_of_exec_nop h
  | sincos =>
    obtain ⟨hsin, hcos⟩ := hsincos rfl
    exact readReg_of_exec_sincos h hsin hcos
  | clarke =>
    obtain ⟨hcurA, hcurB⟩ := hclarke rfl
    exact readReg_of_exec_clarke h hcurA hcurB
  | ipark =>
    obtain ⟨hsin, hcos, hvolA, hvolB⟩ := hipark rfl
    exact readReg_of_exec_ipark h hsin hcos hvolA hvolB
  | park | updcur | iclarke | synth | pidc => simp at hc

end Sys2Proof.Machine
end

section
/-! The two error events in full (60_exceptions.md R251, R252): what raises each, and that the port does nothing else then. -/

namespace Sys2Proof.Machine

/-! ## `ILLCMD` -/

theorem writeReg_cmd_error {w : Word} {e : Illegal} (h : decode w = .error e) (s : State) :
    writeReg 0x01#8 w s = .next (raiseIllCmd s) := by
  show commandBy exec w s = .next (raiseIllCmd s)
  simp [commandBy, h]

/-- Settles O5: a write to index 0x01 of a word that does not decode is the error event alone. -/
theorem illegalWordSetsOnlyIllcmd : Obligations.IllegalWordSetsOnlyIllcmd := by
  unfold Obligations.IllegalWordSetsOnlyIllcmd
  intro s w e rest hp he
  rw [step_of_write hp, writeReg_cmd_error he]
  rfl

/-! ## `ILLACC` -/

/-- At an index of R252 (b) or (c) a write stores nothing. -/
theorem writeReg_reserved_or_readOnly {i : RegIndex} (h : reservedIndex i = true ∨ readOnlyIndex i = true) (w : Word)
    (s : State) : writeReg i w s = .next (raiseIllAcc s) := by
  cases hr : Reg.ofIndex i with
  | none => simp [writeReg, writeRegBy, hr]
  | some r =>
    obtain rfl := Reg.index_of_ofIndex hr
    have hro : r.access = .ro := by simpa [readOnlyIndex_index] using h
    simp [writeReg, writeRegBy, hro]

/-- A read that raises `ILLACC` is of a reserved index. -/
theorem reservedIndex_of_acceptRead_raises {i : RegIndex} {s : State} (h0 : s.block.illAcc = false)
    (h1 : (acceptRead i s).block.illAcc = true) : reservedIndex i = true := by
  simpa [h0] using (acceptRead_illAcc_iff i s).1 h1

/-- A write that raises `ILLACC` is of a reserved or a read-only index. -/
theorem refusedIndex_of_writeReg_raises {i : RegIndex} {w : Word} {s t : State} (h : writeReg i w s = .next t)
    (h0 : s.block.illAcc = false) (h1 : t.block.illAcc = true) : reservedIndex i = true ∨ readOnlyIndex i = true := by
  obtain ⟨-, hset, -⟩ | ⟨-, hset | hi⟩ := (writeReg_illAcc_iff h).1 h1
  · simp [h0] at hset
  · simp [h0] at hset
  · exact hi

/-- Settles O30: the two refused transactions by their equations, and the converse by the cases of a step: an idle step
keeps the flag, the reset input clears it, and a read or a write that raises it has an index of R252. -/
theorem illaccInFull : Obligations.IllaccInFull := by
  unfold Obligations.IllaccInFull
  refine ⟨fun s i rest hp hres => ?_, fun s i w rest hp hi => ?_, fun s t h h0 h1 => ?_⟩
  · rw [step_of_read hp, acceptRead_reserved hres]
    rfl
  · rw [step_of_write hp, writeReg_reserved_or_readOnly hi]
    rfl
  · obtain ⟨-, rfl⟩ | ⟨rest, -, rfl⟩ | ⟨i, rest, hp, rfl⟩ | ⟨i, w, rest, hp, hw⟩ := step_cases h
    · simp [h0] at h1
    · simp [Block.reset] at h1
    · exact .inl ⟨i, rest, hp, reservedIndex_of_acceptRead_raises (s := withPending rest s) h0 h1⟩
    · exact .inr ⟨i, w, rest, hp, refusedIndex_of_writeReg_raises hw h0 h1⟩

end Sys2Proof.Machine
end

section
/-! The reset input (70_reset_and_hazards.md R280, R282). -/

namespace Sys2Proof.Machine

theorem step_of_reset {s : State} {rest : List Input} (h : s.pending = .reset :: rest) :
    step s = .next (resetBlock (withPending rest s)) := by
  simp [step, acceptNext, acceptNextBy, acceptBy, h]

/-- Settles O36: the reset input puts the block of the state after reset in place, whose registers and flags O35 gives. -/
theorem resetInputResetsOnlyTheBlock : Obligations.ResetInputResetsOnlyTheBlock := by
  unfold Obligations.ResetInputResetsOnlyTheBlock
  intro s rest hp
  obtain ⟨hillCmd, hillAcc, hregs⟩ := resetGivesEveryRegisterItsValue
  exact ⟨State.reset.block, step_of_reset hp, hillCmd, hillAcc, hregs⟩

end Sys2Proof.Machine
end
